-- ==== Sys2Proof/Word.lean ====
section
/-! DEFINITION. The block's two bit-vector types: a byte of the frame (R8, R50) and the 32-bit word of
`W`, `V` and of the header words (R7 WORD_BITS, R20). -/

namespace Sys2Proof

/-- A byte, bits 7 to 0 (R8). -/
abbrev Byte := BitVec 8

/-- A 32-bit word, bits 31 to 0 (R7, R8). All values are unsigned. -/
abbrev Word := BitVec 32

end Sys2Proof
end

