-- ==== Sys2Proof/Config.lean ====
section
/-! DEFINITION. The fixed values of R7, the default of its one parameter `BUF_MAX`, and the free values of
the model (notes/assumptions/2.md, 9.md). -/

namespace Sys2Proof.Config

/-- The default of the parameter `BUF_MAX` (R7, D13). The parameter itself is an argument of the model:
`State.resetOf` takes it, and `State.bufMax` holds it (log 9). -/
abbrev bufMaxDefault : Nat := 1024

/-- The least `BUF_MAX` an instance may have (R7, D13). -/
abbrev bufMaxLeast : Nat := 20

/-- The width of `CUR`, `FLEN` and `PLEN`: `ceil(log2(BUF_MAX + 1))` bits, 11 for the default (R20). -/
def lenWidth (bufMax : Nat) : Nat := Nat.log2 bufMax + 1

/-- `HDR_BYTES` of R7: the fixed header, the `ShortBuffer` threshold, the payload offset. -/
abbrev hdrBytes : Nat := 20

/-- `WORD_BYTES` of R7: the bytes one `nextWord` takes. -/
abbrev wordBytes : Nat := 4

/-- `WORD_BITS` of R7. -/
abbrev wordBits : Nat := 32

/-- `TAKE_MAX` of R7: the largest width `takeBits` accepts. -/
abbrev takeMax : Nat := 32

/-- What `W` holds after the `n`-th reset until it is first written. FREE VALUE: R211 says a model must
not assume zero, nor the value from before the reset (log 2). -/
opaque unwrittenW : Nat → Word

/-- What `V` holds after the `n`-th reset until it is first written. FREE VALUE (R211, log 2). -/
opaque unwrittenV : Nat → Word

end Sys2Proof.Config
end

