-- ==== Sys2Proof/Syntax.lean ====
section
/-! DEFINITION. The opcode table as one inductive, the formats its rows are written in, and the host's
transactions with the registers a `READ` may name (R81, R71 to R74, R160, R163). -/

namespace Sys2Proof

/-- One constructor per row of spec/opcode_table.json: the four commands of R81 and the five header-word
formats of R71 to R74, which the table lists as "data format, not a command" (log 7). -/
inductive Instr where
  /-- `NEXTWORD`, R105. -/
  | nextWord
  /-- `TAKEBITS w`, R106; `w = c[5:0]` (R83). -/
  | takeBits (w : BitVec 6)
  /-- `SWAP16`, R122. -/
  | swap16
  /-- `DECODE`, R130. -/
  | decode
  /-- Header word 1, R71: `tlRaw` is the total length as on the wire. -/
  | hw1 (ver : BitVec 4) (ihl : BitVec 4) (ds : BitVec 6) (ecn : BitVec 2) (tlRaw : BitVec 16)
  /-- Header word 2, R72: the 16/2/14 split of C1. -/
  | hw2 (ident : BitVec 16) (flags : BitVec 2) (frag : BitVec 14)
  /-- Header word 3, R73. -/
  | hw3 (ttl : BitVec 8) (proto : BitVec 8) (csum : BitVec 16)
  /-- Header word 4, R74: the source address. -/
  | hw4 (src : BitVec 32)
  /-- Header word 5, R74: the destination address. -/
  | hw5 (dst : BitVec 32)
  deriving DecidableEq, Repr

/-- The formats of the two encodings: `CMD8` (R80) and `HW1` to `HW5` (R70). No bits of a word tell its
format; the place it is met in does: a `CMD` transaction, or its offset in the frame (R51). -/
inductive Format where
  | cmd8 | hw1 | hw2 | hw3 | hw4 | hw5
  deriving DecidableEq, Repr

/-- The registers a `READ` may name (R163), under the spec's names in lower case (`ID` is `ident`). -/
inductive Reg where
  | status | valid | halt | err
  | flen | cur | rem
  | w | v
  | ver | ihl | ds | ecn | tlen | ident | flags | frag | ttl | proto | csum
  | src (i : Fin 4) | dst (i : Fin 4)
  | plen
  deriving DecidableEq, Repr

/-- The host's transactions (R84: "a model makes each a constructor of its transaction type"; R160).
`READ` has two forms, of a register (R163) and of a payload byte (R164). -/
inductive Transaction where
  /-- `RESET`, R166. -/
  | reset
  /-- `LOAD n, b[0..n-1]`, R161: `n` is the length of the list. -/
  | load (bytes : List Byte)
  /-- `RXFAIL`, R162. -/
  | rxfail
  /-- `CMD c`, R165: any byte, reserved words too. -/
  | cmd (c : Byte)
  /-- `READ <register>`, R163. -/
  | read (r : Reg)
  /-- `READ PAY[i]`, R164. -/
  | readPay (i : Nat)
  deriving DecidableEq, Repr

end Sys2Proof
end

