-- ==== Sys2Proof/Machine/State.lean ====
section
/-! DEFINITION. The state of the block (R20), the reasons a step can stop, and the state after reset
(R38, R210). -/

namespace Sys2Proof.Machine

/-- The codes `ERR` can hold (R180): six values, not eight (U10). -/
inductive ErrCode where
  /-- 0: no error since `RESET`. -/
  | noError
  /-- 1: `DECODE` with `FLEN < 20` (R181). -/
  | shortBuffer
  /-- 2: the host reports that the socket read failed (R182). -/
  | socketReadFailure
  /-- 3: `NEXTWORD` with `FLEN - CUR < 4` (R183). -/
  | precondWord
  /-- 4: `TAKEBITS w` with `w > REM` (R184). -/
  | precondTake
  /-- 5: a reserved command word, or `LOAD` with `n > BUF_MAX` (R185). -/
  | badRequest
  deriving DecidableEq, Repr

/-- The four bytes of an address register, `b0` the first on the wire (R33). -/
structure Addr4 where
  b0 : Byte
  b1 : Byte
  b2 : Byte
  b3 : Byte
  deriving DecidableEq, Repr

/-- The record registers, each as wide as its field (R32). `PLEN` is a count of bytes; its width follows from
`BUF_MAX` (R20) and is `Config.lenWidth` bits (log 9). -/
structure Record where
  ver   : BitVec 4
  ihl   : BitVec 4
  ds    : BitVec 6
  ecn   : BitVec 2
  tlen  : BitVec 16
  ident : BitVec 16
  flags : BitVec 2
  frag  : BitVec 14
  ttl   : BitVec 8
  proto : BitVec 8
  csum  : BitVec 16
  src   : Addr4
  dst   : Addr4
  plen  : Nat
  deriving DecidableEq, Repr

/-- The content of the staging copies between two transactions (log 5). -/
def Record.blank : Record where
  ver := 0
  ihl := 0
  ds := 0
  ecn := 0
  tlen := 0
  ident := 0
  flags := 0
  frag := 0
  ttl := 0
  proto := 0
  csum := 0
  src := ⟨0, 0, 0, 0⟩
  dst := ⟨0, 0, 0, 0⟩
  plen := 0

/-- The frame buffer: a cell for every byte that holds a value, addresses strictly rising. An unlisted
address holds no value (R26, U4; log 3). -/
abbrev Memory := List Host.Cell

/-- The block's state, R20, and after it the model's own fields. `CUR` and `FLEN` are counts of bytes; their
width follows from `BUF_MAX` (R20) and is `Config.lenWidth bufMax` bits (log 9). -/
structure State where
  /-- The parameter `BUF_MAX` of this instance of the block (R7, D13): the capacity of `FB`. No step, not even
  `RESET`, changes it (log 9). -/
  bufMax : Nat
  /-- `W` (R21). -/
  w : Word
  /-- `W` has been written since `RESET` (R163, U6). -/
  wWritten : Bool
  /-- `V` (R22). -/
  v : Word
  /-- `V` has been written since `RESET` (R163, U6). -/
  vWritten : Bool
  /-- `CUR` (R23). -/
  cur : Nat
  /-- `REM` (R25). -/
  rem : BitVec 6
  /-- `FB` (R26). -/
  mem : Memory
  /-- `FLEN` (R27). -/
  flen : Nat
  /-- `HALT` (R29). -/
  halt : Bool
  /-- `ERR` (R30). -/
  err : ErrCode
  /-- The record registers, and `VALID`: a record is held exactly when `VALID = 1` (R28, R35, U5; log 4). -/
  record : Option Record
  /-- The MODEL's own: the staging copies `t.X` of R132, no architectural state (R36; log 5). -/
  staged : Record
  /-- The MODEL's own: the transactions the host is going to issue, oldest first (R40; log 1). -/
  port : List Transaction
  /-- The MODEL's own: what the last transaction returned to the host (R160), as an unsigned number, so that it
  is the zero-extension to any width (log 6). -/
  answer : Option Nat
  /-- The MODEL's own: the counter of free values (log 2). -/
  fresh : Nat
  deriving DecidableEq, Repr

/-- Why the machine stops with a fault. The spec's five errors are no faults of the model: fault entry
(R187) is a next state. -/
inductive Fault where
  /-- Raised by every read of the frame buffer (`NEXTWORD`, `DECODE`, `READ PAY[i]`) at an address that
  holds no value, or does not exist (R50, R57). Safe: no run from reset reaches it. -/
  | noValue (addr : Nat)
  deriving DecidableEq, Repr

/-- Why a transaction or a command is refused: it does not happen (R191). -/
inductive Refusal where
  /-- Raised by an arm of `exec` that has no meaning yet. Safe. -/
  | notModelled (mnemonic : String)
  /-- Raised by every command and every transaction but `RESET` and the reads of `STATUS`, `VALID`, `HALT`
  and `ERR`, while `HALT = 1` (R29, R191). Safe: the spec's own refusal. -/
  | halted
  /-- Raised by `READ W` or `READ V` when it has not been written since `RESET` (R163, R191). Safe: the
  spec's own refusal. -/
  | unwritten
  /-- Raised by a `READ` of a record register or of `PAY[i]` while `VALID = 0` (R163, R164, R191). Safe: the
  spec's own refusal. -/
  | noRecord
  /-- Raised by `READ PAY[i]` with `i >= PLEN` (R164, R191). Safe: the spec's own refusal. -/
  | payloadIndex
  deriving DecidableEq, Repr

/-- Why a transition ends early: it raises an error (R187), it reads a byte that holds no value (R57), or
it is refused (R191). -/
inductive Abort where
  | raise (e : ErrCode)
  | noValue (addr : Nat)
  | refuse (r : Refusal)
  deriving DecidableEq, Repr

/-- The block with a given `BUF_MAX` right after reset (R7, R38, R210). `W` and `V` hold a free value and are
unwritten (log 2); no byte of `FB` holds a value; no record is held. -/
def State.resetOf (bufMax : Nat) : State where
  bufMax := bufMax
  w := Config.unwrittenW 0
  wWritten := false
  v := Config.unwrittenV 0
  vWritten := false
  cur := 0
  rem := 0
  mem := []
  flen := 0
  halt := false
  err := .noError
  record := none
  staged := Record.blank
  port := []
  answer := none
  fresh := 0

/-- The block right after reset, with the default `BUF_MAX` (R7, R38, R210). -/
def State.reset : State := State.resetOf Config.bufMaxDefault

end Sys2Proof.Machine
end

