-- ==== Sys2Proof/Machine/Flags.lean ====
section
/-! DEFINITION. The status bits: the codes of `ERR` (R180), `VALID` (R28) and the view `STATUS` (R31). The
block has no condition codes (R31). -/

namespace Sys2Proof.Machine

/-- The 3-bit code of an error (R180). -/
def ErrCode.code : ErrCode → BitVec 3
  | .noError => 0
  | .shortBuffer => 1
  | .socketReadFailure => 2
  | .precondWord => 3
  | .precondTake => 4
  | .badRequest => 5

/-- `VALID` (R28): 1 exactly when a record is held (log 4). -/
def State.valid (s : State) : Bool := s.record.isSome

/-- `STATUS` (R31): bit 0 `VALID`, bit 1 `HALT`, bits 4:2 `ERR`, bits 7:5 zero. -/
def State.status (s : State) : Byte :=
  (0 : BitVec 3) ++ s.err.code ++ BitVec.ofBool s.halt ++ BitVec.ofBool s.valid

end Sys2Proof.Machine
end

