-- ==== Sys2Proof/WellFormed.lean ====
section
/-! DEFINITION. Which instructions have an encoding. The one constraint of the opcode table is `w <= 32`
(R81, R83); every header word is legal (R78). -/

namespace Sys2Proof

/-- Well-formedness of an instruction: the width of a `TAKEBITS` is at most 32 (R82, R83). -/
def Instr.wf : Instr → Bool
  | .nextWord => true
  | .takeBits w => decide (w.toNat ≤ Config.takeMax)
  | .swap16 => true
  | .decode => true
  | .hw1 _ _ _ _ _ => true
  | .hw2 _ _ _ => true
  | .hw3 _ _ _ => true
  | .hw4 _ => true
  | .hw5 _ => true

end Sys2Proof
end

