-- ==== Sys2Proof/Decode.lean ====
section
/-! DEFINITION. The byte order and bit fields of the two encodings (R52, R70 to R74, R80 to R83), the
decoder, total on any bytes and rejecting by name, and after it the encoder. -/

namespace Sys2Proof

/-! ## Byte order and bit fields -/

/-- `BE32` of R10: the big-endian reading of four bytes, the first in bits 31:24 (R52). -/
def be32 (b0 b1 b2 b3 : Byte) : Word := b0 ++ b1 ++ b2 ++ b3

/-- Byte `i` of a word in wire order: bits `31-8i : 24-8i` (R74). -/
def wireByte (w : Word) (i : Fin 4) : Byte := w.extractLsb' (24 - 8 * i.val) 8

/-- The four bytes of a word in wire order. -/
def wireBytes (w : Word) : List Byte := [wireByte w 0, wireByte w 1, wireByte w 2, wireByte w 3]

/-- Format `HW1` packed, bit 31 first: `vvvvhhhhddddddeellllllllllllllll` (R71). -/
def packHw1 (ver ihl : BitVec 4) (ds : BitVec 6) (ecn : BitVec 2) (tlRaw : BitVec 16) : Word :=
  ver ++ ihl ++ ds ++ ecn ++ tlRaw

/-- Format `HW2` packed: `iiiiiiiiiiiiiiiiffoooooooooooooo` (R72). -/
def packHw2 (ident : BitVec 16) (flags : BitVec 2) (frag : BitVec 14) : Word := ident ++ flags ++ frag

/-- Format `HW3` packed: `ttttttttppppppppcccccccccccccccc` (R73). -/
def packHw3 (ttl proto : BitVec 8) (csum : BitVec 16) : Word := ttl ++ proto ++ csum

/-- The fields of a header word 1 (R71). -/
def unpackHw1 (w : Word) : Instr :=
  .hw1 (w.extractLsb' 28 4) (w.extractLsb' 24 4) (w.extractLsb' 18 6) (w.extractLsb' 16 2) (w.extractLsb' 0 16)

/-- The fields of a header word 2 (R72). -/
def unpackHw2 (w : Word) : Instr := .hw2 (w.extractLsb' 16 16) (w.extractLsb' 14 2) (w.extractLsb' 0 14)

/-- The fields of a header word 3 (R73). -/
def unpackHw3 (w : Word) : Instr := .hw3 (w.extractLsb' 24 8) (w.extractLsb' 16 8) (w.extractLsb' 0 16)

/-! ## The decoder -/

/-- Why bytes are no instruction. The reserved words are grouped as R82 groups them. -/
inductive Reject where
  /-- 0x01 .. 0x3F: `NEXTWORD` with `arg != 0`. -/
  | reservedNextWord
  /-- 0x61 .. 0x7F: `TAKEBITS` with `w` in 33..63. -/
  | reservedTakeBits
  /-- 0x81 .. 0xBF: `SWAP16` with `arg != 0`. -/
  | reservedSwap16
  /-- 0xC1 .. 0xFF: `DECODE` with `arg != 0`. -/
  | reservedDecode
  /-- Not the one byte of a command (R80) or the four bytes of a header word (R70). -/
  | wrongLength
  deriving DecidableEq, Repr

/-- `op = c[7:6]` (R80). -/
def cmdOp (c : Byte) : BitVec 2 := c.extractLsb' 6 2

/-- `arg = c[5:0]` (R80). -/
def cmdArg (c : Byte) : BitVec 6 := c.extractLsb' 0 6

/-- The decoder of command words, total: one of the four commands or reserved (R81, R82). -/
def decodeCommand (c : Byte) : Except Reject Instr :=
  match (cmdOp c).toNat with
  | 0 => if cmdArg c = 0 then .ok .nextWord else .error .reservedNextWord
  | 1 => if (cmdArg c).toNat ≤ Config.takeMax then .ok (.takeBits (cmdArg c)) else .error .reservedTakeBits
  | 2 => if cmdArg c = 0 then .ok .swap16 else .error .reservedSwap16
  | _ => if cmdArg c = 0 then .ok .decode else .error .reservedDecode

/-- The decoder: the bytes of a word and the format its place gives it (R51, R70, R80). -/
def decode (f : Format) (bytes : List Byte) : Except Reject Instr :=
  match f, bytes with
  | .cmd8, [c] => decodeCommand c
  | .hw1, [b0, b1, b2, b3] => .ok (unpackHw1 (be32 b0 b1 b2 b3))
  | .hw2, [b0, b1, b2, b3] => .ok (unpackHw2 (be32 b0 b1 b2 b3))
  | .hw3, [b0, b1, b2, b3] => .ok (unpackHw3 (be32 b0 b1 b2 b3))
  | .hw4, [b0, b1, b2, b3] => .ok (.hw4 (be32 b0 b1 b2 b3))
  | .hw5, [b0, b1, b2, b3] => .ok (.hw5 (be32 b0 b1 b2 b3))
  | _, _ => .error .wrongLength

/-- The instruction the decoder reads from a word of the opcode table. Eight bits are a command word.
Thirty-two bits are a header word, stored as the hardware stores one; no bit of it names its format, and
alone it is the first of its frame, `HW1` (R51; log 11). -/
def decodeTableWord (nbits w : Nat) : Option Instr :=
  if nbits = 8 then (decode .cmd8 [BitVec.ofNat 8 w]).toOption
  else if nbits = 32 then (decode .hw1 (wireBytes (BitVec.ofNat 32 w))).toOption
  else none

/-! ## The encoder -/

/-- The format of an instruction's word. -/
def Instr.format : Instr → Format
  | .nextWord => .cmd8
  | .takeBits _ => .cmd8
  | .swap16 => .cmd8
  | .decode => .cmd8
  | .hw1 _ _ _ _ _ => .hw1
  | .hw2 _ _ _ => .hw2
  | .hw3 _ _ _ => .hw3
  | .hw4 _ => .hw4
  | .hw5 _ => .hw5

/-- The length of a format's word in bytes (R70, R80). -/
def Format.bytes : Format → Nat
  | .cmd8 => 1
  | .hw1 => 4
  | .hw2 => 4
  | .hw3 => 4
  | .hw4 => 4
  | .hw5 => 4

/-- The bytes of a well-formed instruction, from the encoding tables of R71 to R74 and R81. -/
def encode : Instr → List Byte
  | .nextWord => [0x00]
  | .takeBits w => [(0b01 : BitVec 2) ++ w]
  | .swap16 => [0x80]
  | .decode => [0xC0]
  | .hw1 ver ihl ds ecn tlRaw => wireBytes (packHw1 ver ihl ds ecn tlRaw)
  | .hw2 ident flags frag => wireBytes (packHw2 ident flags frag)
  | .hw3 ttl proto csum => wireBytes (packHw3 ttl proto csum)
  | .hw4 src => wireBytes src
  | .hw5 dst => wireBytes dst

end Sys2Proof
end

