-- ==== Sys2Proof/Machine/Operands.lean ====
section
/-! DEFINITION. The pure functions of the block: the two shifts of R10, the Bit-Window Extractor (R100,
R101) and the Endianness Transform (R120). -/

namespace Sys2Proof.Machine

/-- `shr32(x, n)` of R10: a logical right shift, never modulo 32, so a shift by 32 gives 0. -/
def shr32 (x : Word) (n : Nat) : Word := x >>> n

/-- `shl32(x, n)` of R10: `(x * 2^n) mod 2^32`, so a shift by 32 gives 0. -/
def shl32 (x : Word) (n : Nat) : Word := x <<< n

/-- `nextWord(buf) -> (word, rest)` of R100; not defined on fewer than 4 bytes (U1). -/
def nextWord : List Byte → Option (Word × List Byte)
  | b0 :: b1 :: b2 :: b3 :: rest => some (be32 b0 b1 b2 b3, rest)
  | _ => none

/-- `takeBits(word, w) -> (value, remainder)` of R101, for `w <= 32`. -/
def takeBits (word : Word) (w : Nat) : Word × Word := (shr32 word (32 - w), shl32 word w)

/-- The values and the last remainder of taking the widths `ws` one after another, each from the remainder
of the one before (R104). -/
def takeFields (word : Word) : List Nat → List Word × Word
  | [] => ([], word)
  | w :: ws =>
    let (value, remainder) := takeBits word w
    let (values, last) := takeFields remainder ws
    (value :: values, last)

/-- `swap16(v)` of R120: `{v[7:0], v[15:8]}`, unconditionally (C7, D11). -/
def swap16 (v : BitVec 16) : BitVec 16 := v.extractLsb' 0 8 ++ v.extractLsb' 8 8

end Sys2Proof.Machine
end

