-- ==== Sys2Proof/Machine/Ops.lean ====
section
/-! DEFINITION. The shared operations: the frame buffer, fault entry and reset, the reader's three
operations, and the staging and commit of the record. -/

namespace Sys2Proof.Machine

/-! ## The frame buffer -/

/-- The byte a memory lists at an address, if any. -/
def Memory.read : Memory → Nat → Option Byte
  | [], _ => none
  | (a, b) :: m, x => if a = x then some b else Memory.read m x

/-- Writes one byte, keeping the addresses strictly rising. -/
def Memory.write (a : Nat) (b : Byte) : Memory → Memory
  | [] => [(a, b)]
  | (a', b') :: m =>
    if a < a' then (a, b) :: (a', b') :: m
    else if a = a' then (a, b) :: m
    else (a', b') :: Memory.write a b m

/-- `MemWrite(a, n, v)` of R11: the bytes `bs` at `a`, `a + 1`, and so on. -/
def Memory.writeBytes (a : Nat) : List Byte → Memory → Memory
  | [], m => m
  | b :: bs, m => Memory.write a b (Memory.writeBytes (a + 1) bs m)

/-- The canonical form of a memory: addresses strictly rising. An unlisted address holds no value, so no
entry can equal what an unlisted address reads as (log 3). -/
def Memory.wf (m : Memory) : Bool := decide (m.Pairwise (fun c d => c.1 < d.1))

/-- Every cell of a memory is one of `FB[0 .. bufMax-1]` (R26, R50). -/
def Memory.within (bufMax : Nat) (m : Memory) : Bool := m.all (fun c => decide (c.1 < bufMax))

/-- The byte `FB[a]` of the present frame: none at `FLEN` and above (R57, D13). -/
def State.readByte (s : State) (a : Nat) : Option Byte :=
  if a < s.flen then s.mem.read a else none

/-- `MemRead(a, n)` of R11 and R57: the `n` bytes from `a`, in address order. -/
def State.memRead (s : State) (a : Nat) : Nat → Except Abort (List Byte)
  | 0 => .ok []
  | n + 1 =>
    match s.readByte a with
    | none => .error (.noValue a)
    | some b =>
      match s.memRead (a + 1) n with
      | .ok bs => .ok (b :: bs)
      | .error e => .error e

/-! ## Fault entry, refusal and reset -/

/-- Fault entry, the same for every error (R187): `HALT <- 1`, `ERR <- code(E)`, `VALID <- 0` and nothing
else. There is no handler, vector or saved state. -/
def State.faultEntry (e : ErrCode) (s : State) : State :=
  { s with halt := true, err := e, record := none }

/-- The end of a transition begun at `s`. One that raises writes nothing but the fault entry, applied to
`s` itself, so errors are precise (R187, R188); a refused one does not happen (R191). -/
def conclude (s : State) : Except Abort State → Host.Outcome State Fault Refusal
  | .ok t => .next t
  | .error (.raise e) => .next (s.faultEntry e)
  | .error (.noValue a) => .fault (.noValue a)
  | .error (.refuse r) => .refused r

/-- The first check of every command and of every transaction but `RESET` and the status reads: refused
while `HALT = 1` (R189, R191). -/
def whenRunning {α : Type} (s : State) (k : Except Abort α) : Except Abort α :=
  if s.halt then .error (.refuse .halted) else k

/-- The effect of `RESET` (R210) on the block; there is no other return from an error (R190). The parameter
`BUF_MAX` stays (R7), and so does what the host is going to issue; `W` and `V` take fresh free values
(log 2). -/
def State.resetBlock (s : State) : State :=
  { State.resetOf s.bufMax with
    w := Config.unwrittenW (s.fresh + 1)
    v := Config.unwrittenV (s.fresh + 1)
    fresh := s.fresh + 1
    port := s.port
    answer := s.answer }

/-! ## The reader -/

/-- What `NEXTWORD` writes (R105): `W`, `CUR` and `REM`. -/
def State.beginWord (word : Word) (s : State) : State :=
  { s with w := word, wWritten := true, cur := s.cur + 4, rem := 32 }

/-- `NEXTWORD` after its `HALT` check (R105). -/
def nextWordOp (s : State) : Except Abort State :=
  if s.flen - s.cur < Config.wordBytes then .error (.raise .precondWord)
  else
    match s.memRead s.cur Config.wordBytes with
    | .error e => .error e
    | .ok bytes =>
      match nextWord bytes with
      | none => .error (.raise .precondWord)
      | some (word, _) => .ok (s.beginWord word)

/-- What `TAKEBITS w` writes (R106): `V`, `W` and `REM`. The value does not depend on `W` when `w = 0`, so
`V` is then written whatever `W` is; a value drawn from an unwritten `W` holds no value (U6, log 8). -/
def State.takeTop (w : Nat) (s : State) : State :=
  { s with
    v := (takeBits s.w w).1
    vWritten := s.wWritten || w == 0
    w := (takeBits s.w w).2
    rem := s.rem - BitVec.ofNat 6 w }

/-- `TAKEBITS w`, `w <= 32`, after its `HALT` and encoding checks (R106). -/
def takeBitsOp (w : Nat) (s : State) : Except Abort State :=
  if s.rem.toNat < w then .error (.raise .precondTake) else .ok (s.takeTop w)

/-- What `SWAP16` writes (R122): `V <- zext_32(swap16(V[15:0]))`; an unwritten `V` stays unwritten. -/
def State.swapValue (s : State) : State :=
  { s with v := (Machine.swap16 (s.v.setWidth 16)).setWidth 32 }

/-! ## The steps of `DECODE` (R132) -/

/-- Writes staging copies. -/
def State.stage (put : Record → Record) (s : State) : State := { s with staged := put s.staged }

/-- One row `TAKEBITS w`, `t.X <- V[w-1:0]` of R132's table. -/
def takeField (w : Nat) (put : Word → Record → Record) (s : State) : Except Abort State :=
  match takeBitsOp w s with
  | .error e => .error e
  | .ok t => .ok (t.stage (put t.v))

/-- The four bytes of an address word in wire order: byte `i` is `W[31-8i : 24-8i]` (R74, R132). -/
def Addr4.ofWord (w : Word) : Addr4 := ⟨wireByte w 0, wireByte w 1, wireByte w 2, wireByte w 3⟩

/-- Steps 2 to 6 of R132, on a word 1 that stands in `W`: 4/4/6/2/16, the last swapped. -/
def cutHw1 (s : State) : Except Abort State := do
  let s ← takeField 4 (fun v r => { r with ver := v.setWidth 4 }) s
  let s ← takeField 4 (fun v r => { r with ihl := v.setWidth 4 }) s
  let s ← takeField 6 (fun v r => { r with ds := v.setWidth 6 }) s
  let s ← takeField 2 (fun v r => { r with ecn := v.setWidth 2 }) s
  let s ← takeBitsOp 16 s
  let s := s.swapValue
  .ok (s.stage fun r => { r with tlen := s.v.setWidth 16 })

/-- Steps 8 to 10 of R132, on a word 2 that stands in `W`: 16/2/14. -/
def cutHw2 (s : State) : Except Abort State := do
  let s ← takeField 16 (fun v r => { r with ident := v.setWidth 16 }) s
  let s ← takeField 2 (fun v r => { r with flags := v.setWidth 2 }) s
  takeField 14 (fun v r => { r with frag := v.setWidth 14 }) s

/-- Steps 12 to 14 of R132, on a word 3 that stands in `W`: 8/8/16. -/
def cutHw3 (s : State) : Except Abort State := do
  let s ← takeField 8 (fun v r => { r with ttl := v.setWidth 8 }) s
  let s ← takeField 8 (fun v r => { r with proto := v.setWidth 8 }) s
  takeField 16 (fun v r => { r with csum := v.setWidth 16 }) s

/-- The staging of step 15 of R132, on a word 4 that stands in `W`. -/
def cutHw4 (s : State) : Except Abort State :=
  .ok (s.stage fun r => { r with src := Addr4.ofWord s.w })

/-- The staging of step 16 of R132, on a word 5 that stands in `W`. -/
def cutHw5 (s : State) : Except Abort State :=
  .ok (s.stage fun r => { r with dst := Addr4.ofWord s.w })

/-- Step 17 of R132: `t.PLEN <- FLEN - 20`. -/
def State.stagePlen (s : State) : State := s.stage fun r => { r with plen := s.flen - 20 }

/-- The commit of R136: every record register at once, and with them `VALID <- 1`. The staging copies end
with the transition (R36, log 5). -/
def State.commit (s : State) : State := { s with record := some s.staged, staged := Record.blank }

/-- A header word that arrives as an operand: the group of R132's steps that consumes it, `NEXTWORD`'s
precondition and writes and then the cut of its format (log 7). -/
def headerWordOp (word : Word) (cut : State → Except Abort State) (s : State) : Except Abort State :=
  if s.flen - s.cur < Config.wordBytes then .error (.raise .precondWord)
  else cut (s.beginWord word)

end Sys2Proof.Machine
end

