-- ==== Sys2Proof/Machine/Decoder.lean ====
section
/-! DEFINITION. The IPv4 Header Decoder family (42_decoder.md): `DECODE`. -/

namespace Sys2Proof.Machine

/-- Steps 0 to 17 of R132 in order, on the architectural reader registers, and the commit of R136. -/
def decodeSteps (s : State) : Except Abort State := do
  let s ← nextWordOp { s with cur := 0 }
  let s ← cutHw1 s
  let s ← nextWordOp s
  let s ← cutHw2 s
  let s ← nextWordOp s
  let s ← cutHw3 s
  let s ← nextWordOp s
  let s ← cutHw4 s
  let s ← nextWordOp s
  let s ← cutHw5 s
  .ok s.stagePlen.commit

/-- `DECODE`, R130: the length check first and alone (R131), then the steps. Nothing is validated
(R135). -/
def execDecode (s : State) : Host.Outcome State Fault Refusal :=
  conclude s (whenRunning s
    (if s.flen < Config.hdrBytes then .error (.raise .shortBuffer) else decodeSteps s))

end Sys2Proof.Machine
end

