-- ==== Sys2Proof/Machine/Extractor.lean ====
section
/-! DEFINITION. The Bit-Window Extractor family (40_extractor.md): `NEXTWORD` and `TAKEBITS w`. -/

namespace Sys2Proof.Machine

/-- `NEXTWORD`, R105. -/
def execNextWord (s : State) : Host.Outcome State Fault Refusal :=
  conclude s (whenRunning s (nextWordOp s))

/-- `TAKEBITS w`, R106: `w > 32` is a reserved encoding and raises `BadRequest` before `w > REM` is looked
at (R189). -/
def execTakeBits (w : BitVec 6) (s : State) : Host.Outcome State Fault Refusal :=
  conclude s (whenRunning s
    (if Config.takeMax < w.toNat then .error (.raise .badRequest) else takeBitsOp w.toNat s))

end Sys2Proof.Machine
end

