-- ==== Sys2Proof/Machine/HeaderWords.lean ====
section
/-! DEFINITION. The header-word formats `HW1` to `HW5` (R71 to R74). The table calls them data formats; the
meaning of each is the group of `DECODE`'s steps (R132) that consumes a word of that format, its fields
going to the staging copies (log 7). -/

namespace Sys2Proof.Machine

/-- Header word 1: steps 1 to 6 of R132. -/
def execHw1 (ver ihl : BitVec 4) (ds : BitVec 6) (ecn : BitVec 2) (tlRaw : BitVec 16) (s : State) :
    Host.Outcome State Fault Refusal :=
  conclude s (whenRunning s (headerWordOp (packHw1 ver ihl ds ecn tlRaw) cutHw1 s))

/-- Header word 2: steps 7 to 10 of R132. -/
def execHw2 (ident : BitVec 16) (flags : BitVec 2) (frag : BitVec 14) (s : State) :
    Host.Outcome State Fault Refusal :=
  conclude s (whenRunning s (headerWordOp (packHw2 ident flags frag) cutHw2 s))

/-- Header word 3: steps 11 to 14 of R132. -/
def execHw3 (ttl proto : BitVec 8) (csum : BitVec 16) (s : State) : Host.Outcome State Fault Refusal :=
  conclude s (whenRunning s (headerWordOp (packHw3 ttl proto csum) cutHw3 s))

/-- Header word 4: step 15 of R132. -/
def execHw4 (src : BitVec 32) (s : State) : Host.Outcome State Fault Refusal :=
  conclude s (whenRunning s (headerWordOp src cutHw4 s))

/-- Header word 5: step 16 of R132. -/
def execHw5 (dst : BitVec 32) (s : State) : Host.Outcome State Fault Refusal :=
  conclude s (whenRunning s (headerWordOp dst cutHw5 s))

end Sys2Proof.Machine
end

