-- ==== Sys2Proof/Machine/Transform.lean ====
section
/-! DEFINITION. The Endianness Transform family (41_endianness.md): `SWAP16`. -/

namespace Sys2Proof.Machine

/-- `SWAP16`, R122: it raises nothing of its own. -/
def execSwap16 (s : State) : Host.Outcome State Fault Refusal :=
  conclude s (whenRunning s (.ok s.swapValue))

end Sys2Proof.Machine
end

