-- ==== Sys2Proof/Machine/Dispatch.lean ====
section
/-! DEFINITION. The dispatch: one arm per constructor of `Instr`. -/

namespace Sys2Proof.Machine

def exec (i : Instr) (s : State) : Host.Outcome State Fault Refusal :=
  match i with
  | .nextWord => Sys2Proof.Machine.execNextWord s
  | .takeBits w => Sys2Proof.Machine.execTakeBits w s
  | .swap16 => Sys2Proof.Machine.execSwap16 s
  | .decode => Sys2Proof.Machine.execDecode s
  | .hw1 ver ihl ds ecn tlRaw => Sys2Proof.Machine.execHw1 ver ihl ds ecn tlRaw s
  | .hw2 ident flags frag => Sys2Proof.Machine.execHw2 ident flags frag s
  | .hw3 ttl proto csum => Sys2Proof.Machine.execHw3 ttl proto csum s
  | .hw4 src => Sys2Proof.Machine.execHw4 src s
  | .hw5 dst => Sys2Proof.Machine.execHw5 dst s

end Sys2Proof.Machine
end

