-- ==== Sys2Proof/Machine/Framing.lean ====
section
/-! DEFINITION. The host's transactions (43_framing.md): `RESET`, `LOAD`, `RXFAIL`, `CMD` and `READ`. -/

namespace Sys2Proof.Machine

/-- `RESET`, R166 and R210: accepted in every state. -/
def doReset (s : State) : Host.Outcome State Fault Refusal := .next s.resetBlock

/-- What `LOAD` writes (R161): the frame, of which no byte of an earlier one is left (R57, D13), `FLEN`,
`CUR`, `REM` and `VALID`; `W` and `V` stay. -/
def State.loadFrame (bytes : List Byte) (s : State) : State :=
  { s with
    mem := Memory.writeBytes 0 bytes []
    flen := bytes.length
    cur := 0
    rem := 0
    record := none }

/-- `LOAD n, b[0..n-1]`, R161. -/
def doLoad (bytes : List Byte) (s : State) : Host.Outcome State Fault Refusal :=
  conclude s (whenRunning s
    (if s.bufMax < bytes.length then .error (.raise .badRequest) else .ok (s.loadFrame bytes)))

/-- `RXFAIL`, R162. -/
def doRxfail (s : State) : Host.Outcome State Fault Refusal :=
  conclude s (whenRunning s (.error (.raise .socketReadFailure)))

/-- `CMD c`, R165: refused while halted, `BadRequest` on a reserved word, else the command's own rule. -/
def doCmd (c : Byte) (s : State) : Host.Outcome State Fault Refusal :=
  if s.halt then .refused .halted
  else
    match decode .cmd8 [c] with
    | .error _ => conclude s (.error (.raise .badRequest))
    | .ok i => exec i s

/-- Byte `i` of an address register (R33). -/
def Addr4.get (a : Addr4) : Fin 4 → Byte
  | 0 => a.b0
  | 1 => a.b1
  | 2 => a.b2
  | 3 => a.b3

/-- The read of a register that is answered whenever the block runs. -/
def readRunning (x : Nat) (s : State) : Except Abort Nat := whenRunning s (.ok x)

/-- The read of `W` or `V` (R163): only when written since `RESET`. -/
def readWritten (written : Bool) (x : Nat) (s : State) : Except Abort Nat :=
  whenRunning s (if written then .ok x else .error (.refuse .unwritten))

/-- The read of a record register (R163): only while `VALID = 1`. -/
def readRecord (field : Record → Nat) (s : State) : Except Abort Nat :=
  whenRunning s
    (match s.record with
     | none => .error (.refuse .noRecord)
     | some r => .ok (field r))

/-- The value `READ <register>` returns, zero-extended, or why it is refused (R163). -/
def readReg (r : Reg) (s : State) : Except Abort Nat :=
  match r with
  | .status => .ok s.status.toNat
  | .valid => .ok s.valid.toNat
  | .halt => .ok s.halt.toNat
  | .err => .ok s.err.code.toNat
  | .flen => readRunning s.flen s
  | .cur => readRunning s.cur s
  | .rem => readRunning s.rem.toNat s
  | .w => readWritten s.wWritten s.w.toNat s
  | .v => readWritten s.vWritten s.v.toNat s
  | .ver => readRecord (fun r => r.ver.toNat) s
  | .ihl => readRecord (fun r => r.ihl.toNat) s
  | .ds => readRecord (fun r => r.ds.toNat) s
  | .ecn => readRecord (fun r => r.ecn.toNat) s
  | .tlen => readRecord (fun r => r.tlen.toNat) s
  | .ident => readRecord (fun r => r.ident.toNat) s
  | .flags => readRecord (fun r => r.flags.toNat) s
  | .frag => readRecord (fun r => r.frag.toNat) s
  | .ttl => readRecord (fun r => r.ttl.toNat) s
  | .proto => readRecord (fun r => r.proto.toNat) s
  | .csum => readRecord (fun r => r.csum.toNat) s
  | .src i => readRecord (fun r => (r.src.get i).toNat) s
  | .dst i => readRecord (fun r => (r.dst.get i).toNat) s
  | .plen => readRecord (fun r => r.plen) s

/-- The byte `READ PAY[i]` returns, `FB[20 + i]`, or why it is refused (R164). -/
def readPayload (i : Nat) (s : State) : Except Abort Nat :=
  whenRunning s
    (match s.record with
     | none => .error (.refuse .noRecord)
     | some r =>
       if r.plen ≤ i then .error (.refuse .payloadIndex)
       else
         match s.readByte (Config.hdrBytes + i) with
         | none => .error (.noValue (Config.hdrBytes + i))
         | some b => .ok b.toNat)

/-- A value returned to the host; a `READ` writes nothing of the block (R39, R163). -/
def State.reply (x : Nat) (s : State) : State := { s with answer := some x }

/-- `READ <register>`, R163. -/
def doRead (r : Reg) (s : State) : Host.Outcome State Fault Refusal :=
  conclude s ((readReg r s).map (fun x => s.reply x))

/-- `READ PAY[i]`, R164. -/
def doReadPay (i : Nat) (s : State) : Host.Outcome State Fault Refusal :=
  conclude s ((readPayload i s).map (fun x => s.reply x))

/-- The transaction table, R160. -/
def perform (t : Transaction) (s : State) : Host.Outcome State Fault Refusal :=
  match t with
  | .reset => doReset s
  | .load bytes => doLoad bytes s
  | .rxfail => doRxfail s
  | .cmd c => doCmd c s
  | .read r => doRead r s
  | .readPay i => doReadPay i s

/-- The host issues its oldest pending transaction, of which `rest` is left; every transaction but an
answered `READ` returns nothing (R160). -/
def State.accept (rest : List Transaction) (s : State) : State := { s with port := rest, answer := none }

/-- `s` with the host's next transaction `CMD c`. -/
def State.issueCommand (c : Byte) (s : State) : State := { s with port := .cmd c :: s.port }

/-- `s` with a frame whose first header word is `word` and whose other header words are zero, as a `LOAD`
leaves it, and the host's next transaction `CMD DECODE`, which consumes it (log 11). -/
def State.issueHeaderWord (word : Word) (s : State) : State :=
  (s.loadFrame (wireBytes word ++ List.replicate 16 0)).issueCommand 0xC0

end Sys2Proof.Machine
end

