-- ==== Sys2Proof/Machine/Step.lean ====
section
/-! DEFINITION. One step: the block takes the host's next transaction, whole (R59, R168). -/

namespace Sys2Proof.Machine

/-- One step: the oldest pending transaction, performed to its end. With none pending the block keeps its
state (R160, R210). -/
def step (s : State) : Host.Outcome State Fault Refusal :=
  match s.port with
  | [] => .next s
  | t :: rest => perform t (s.accept rest)

/-- `s` with an instruction's word placed where the next step takes it: a command word as the host's next
`CMD` transaction (R165), a header word as the first of the frame, with `CMD DECODE` (log 11). -/
def State.withFetchWord (s : State) (nbits w : Nat) : State :=
  if nbits = 32 then s.issueHeaderWord (BitVec.ofNat 32 w) else s.issueCommand (BitVec.ofNat 8 w)

end Sys2Proof.Machine
end

