-- ==== Sys2Proof/Safety.lean ====
section
/-! DEFINITION. The terms claims use: when the frame is held, the record a frame decodes to in closed form
(R76, R133), the invariants of R37, runs of commands, and what a `READ` is answered. -/

namespace Sys2Proof

/-- The registers read only with a record (R163, last row). -/
def Reg.ofRecord : Reg → Bool
  | .status | .valid | .halt | .err | .flen | .cur | .rem | .w | .v => false
  | _ => true

/-- The registers answered in every state (R163, first row). -/
def Reg.always : Reg → Bool
  | .status | .valid | .halt | .err => true
  | _ => false

/-- The transactions accepted while halted (R160, R191): `RESET` and the status reads. -/
def Transaction.acceptedHalted : Transaction → Bool
  | .reset => true
  | .read r => r.always
  | _ => false

/-- The errors each transaction can raise (R195); a command by the instruction its word decodes to. -/
def Transaction.canRaise : Transaction → List Machine.ErrCode
  | .reset => []
  | .load _ => [.badRequest]
  | .rxfail => [.socketReadFailure]
  | .read _ => []
  | .readPay _ => []
  | .cmd c =>
    match decode .cmd8 [c] with
    | .error _ => [.badRequest]
    | .ok .nextWord => [.precondWord]
    | .ok (.takeBits _) => [.badRequest, .precondTake]
    | .ok .swap16 => []
    | .ok .decode => [.shortBuffer]
    | .ok _ => []

end Sys2Proof

namespace Sys2Proof.Machine

/-! ## The frame and the record it decodes to -/

/-- `FB` holds a byte at exactly the addresses below `FLEN` (R26, R57; U4: "a list of exactly `FLEN`
bytes"). -/
abbrev State.FrameHeld (s : State) : Prop := s.mem.map Prod.fst = List.range s.flen

/-- The byte `FB[a]` where the frame holds one. -/
def State.byteAt (s : State) (a : Nat) : Byte := (s.readByte a).getD 0

/-- The record of a frame, by the closed forms of R76 and R133, each field from its wire bytes. It does not
go through `takeBits`. -/
def Record.ofFrame (byte : Nat → Byte) (flen : Nat) : Record where
  ver := (byte 0).extractLsb' 4 4
  ihl := (byte 0).extractLsb' 0 4
  ds := (byte 1).extractLsb' 2 6
  ecn := (byte 1).extractLsb' 0 2
  tlen := byte 3 ++ byte 2
  ident := byte 4 ++ byte 5
  flags := (byte 6).extractLsb' 6 2
  frag := (byte 6).extractLsb' 0 6 ++ byte 7
  ttl := byte 8
  proto := byte 9
  csum := byte 10 ++ byte 11
  src := ⟨byte 12, byte 13, byte 14, byte 15⟩
  dst := ⟨byte 16, byte 17, byte 18, byte 19⟩
  plen := flen - 20

/-! ## Invariants -/

/-- The low `32 - REM` bits of `W` are zero (R37 item 7). -/
def State.ConsumedZero (s : State) : Prop := ∀ i, i < 32 - s.rem.toNat → s.w.getLsbD i = false

/-- `CUR`, `FLEN` and `PLEN` fit the width R20 gives them for this `BUF_MAX` (log 9). -/
structure State.LengthsFit (s : State) : Prop where
  cur : s.cur < 2 ^ Config.lenWidth s.bufMax
  flen : s.flen < 2 ^ Config.lenWidth s.bufMax
  plen : ∀ r, s.record = some r → r.plen < 2 ^ Config.lenWidth s.bufMax

/-- The invariants of R37, with a legal parameter, the held frame and the model's own fields. -/
structure State.Inv (s : State) : Prop where
  /-- The constraint on `BUF_MAX` (R7, D13). -/
  bufMaxLegal : Config.bufMaxLeast ≤ s.bufMax
  /-- `FB` holds a byte at exactly the addresses below `FLEN`. -/
  frameHeld : s.FrameHeld
  /-- Item 1. -/
  flenBound : s.flen ≤ s.bufMax
  /-- Item 2, alignment. -/
  curAligned : s.cur % 4 = 0
  /-- Item 2, bound. -/
  curInFrame : s.cur ≤ s.flen
  /-- Item 3. -/
  remBound : s.rem.toNat ≤ 32
  /-- Item 4. -/
  haltErr : s.halt = true ↔ s.err ≠ .noError
  /-- Item 5. -/
  haltInvalid : s.halt = true → s.record = none
  /-- Item 6. -/
  recordOfFrame : ∀ r, s.record = some r → 20 ≤ s.flen ∧ r = Record.ofFrame s.byteAt s.flen
  /-- Item 7, as far as one state shows it: while bits remain, `W` was written after the latest `LOAD`. -/
  consumedZero : 0 < s.rem.toNat → s.ConsumedZero
  /-- While bits remain, `W` has been written since `RESET` (R38, R211). -/
  wordWritten : 0 < s.rem.toNat → s.wWritten = true
  /-- The staging copies are blank between transactions (R36, log 5). -/
  stagedBlank : s.staged = Record.blank

/-! ## Runs of commands -/

/-- The commands `is` executed one after another, stopping at the first fault or refusal. -/
def execSeq : List Instr → State → Host.Outcome State Fault Refusal
  | [], s => .next s
  | i :: is, s =>
    match exec i s with
    | .next t => execSeq is t
    | .fault f => .fault f
    | .refused r => .refused r

/-- The states after each of the commands `is`, when all of them answer a next state. -/
def execTrace : List Instr → State → Option (List State)
  | [], _ => some []
  | i :: is, s =>
    match exec i s with
    | .next t => (execTrace is t).map (fun ts => t :: ts)
    | _ => none

/-- The reader commands of R132's table, in its order: steps 1 to 16. -/
def decodeSequence : List Instr :=
  [.nextWord, .takeBits 4, .takeBits 4, .takeBits 6, .takeBits 2, .takeBits 16, .swap16,
    .nextWord, .takeBits 16, .takeBits 2, .takeBits 14,
    .nextWord, .takeBits 8, .takeBits 8, .takeBits 16,
    .nextWord, .nextWord]

/-- `n` steps, stopping at the first fault or refusal. -/
def runSteps (n : Nat) (s : State) : Host.Outcome State Fault Refusal := Host.Core.run Sys2Proof.core n s

/-- `f_1 * 2^(n - w_1) + f_2 * 2^(n - w_1 - w_2) + ...`: fields put back in their places (R109). -/
def fieldSum (n : Nat) : List Nat → List Word → Nat
  | w :: ws, f :: fs => f.toNat * 2 ^ (n - w) + fieldSum (n - w) ws fs
  | _, _ => 0

/-! ## What the host sees -/

/-- `READ r` is answered with `x`: one step, nothing changed but the answer and the taken transaction. -/
def State.Answers (s : State) (r : Reg) (x : Nat) : Prop :=
  ∀ rest, s.port = .read r :: rest → step s = .next { s with port := rest, answer := some x }

/-- `READ r` is refused. -/
def State.RefusesRead (s : State) (r : Reg) (why : Refusal) : Prop :=
  ∀ rest, s.port = .read r :: rest → step s = .refused why

/-- The two states differ at most in what an unwritten `W` and an unwritten `V` hold. -/
def State.SameButUnwritten (s t : State) : Prop :=
  t = { s with w := if s.wWritten then s.w else t.w, v := if s.vWritten then s.v else t.v }

/-- The two outcomes are of one kind: next states that differ at most in unwritten registers, or the same
fault or refusal. -/
def SameOutcome : Host.Outcome State Fault Refusal → Host.Outcome State Fault Refusal → Prop
  | .next s, .next t => s.SameButUnwritten t
  | .fault f, .fault g => f = g
  | .refused r, .refused q => r = q
  | _, _ => False

end Sys2Proof.Machine
end

