-- ==== Sys2Proof/Certificates/Slice0/Obligations.lean ====
section
/-! DEFINITION. The statements for the provers, in the order of the spec's files: encodings, pure functions,
the commands, the header words, the host's transactions, errors and refusals, reset and the invariants. -/

open Sys2Proof Sys2Proof.Machine

/-! ## Encodings (30_encoding.md) -/

/-- R81 and R83: `NEXTWORD` is 0x00, `TAKEBITS w` is `0x40 + w` for `w <= 32`, `SWAP16` is 0x80, `DECODE`
is 0xC0. -/
def Obligations.CommandWordsDecodeAsTabled : Prop :=
  decode .cmd8 [0x00] = .ok .nextWord ∧
  (∀ w : BitVec 6, w.toNat ≤ 32 → decode .cmd8 [0x40 + w.setWidth 8] = .ok (.takeBits w)) ∧
  decode .cmd8 [0x80] = .ok .swap16 ∧
  decode .cmd8 [0xC0] = .ok .decode

/-- R82: a command word is one of the four commands or reserved, the reserved words are exactly the ranges
of the table, and a reserved word raises `BadRequest` when issued. -/
def Obligations.ReservedWordsRaiseBadRequest : Prop :=
  ∀ c : Byte,
    ((∃ e, decode .cmd8 [c] = .error e) ↔
      (0x01 ≤ c.toNat ∧ c.toNat ≤ 0x3F) ∨ (0x61 ≤ c.toNat ∧ c.toNat ≤ 0x7F) ∨
      (0x81 ≤ c.toNat ∧ c.toNat ≤ 0xBF) ∨ (0xC1 ≤ c.toNat ∧ c.toNat ≤ 0xFF)) ∧
    (∀ i, decode .cmd8 [c] = .ok i →
      i = .nextWord ∨ (∃ w, i = .takeBits w) ∨ i = .swap16 ∨ i = .decode) ∧
    (∀ s : State, ∀ rest e, s.halt = false → s.port = .cmd c :: rest → decode .cmd8 [c] = .error e →
      step s = .next { s with
        port := rest, answer := none, halt := true, err := .badRequest, record := none })

/-- R71 to R74, column "in bytes": the four bytes of a header word decode, in the format of its place, to
the fields of the tables; no four bytes are refused (R78). -/
def Obligations.HeaderWordsDecodeAsTabled : Prop :=
  ∀ b0 b1 b2 b3 : Byte,
    decode .hw1 [b0, b1, b2, b3] =
      .ok (.hw1 (b0.extractLsb' 4 4) (b0.extractLsb' 0 4) (b1.extractLsb' 2 6) (b1.extractLsb' 0 2)
        (b2 ++ b3)) ∧
    decode .hw2 [b0, b1, b2, b3] =
      .ok (.hw2 (b0 ++ b1) (b2.extractLsb' 6 2) (b2.extractLsb' 0 6 ++ b3)) ∧
    decode .hw3 [b0, b1, b2, b3] = .ok (.hw3 b0 b1 (b2 ++ b3)) ∧
    decode .hw4 [b0, b1, b2, b3] = .ok (.hw4 (b0 ++ b1 ++ b2 ++ b3)) ∧
    decode .hw5 [b0, b1, b2, b3] = .ok (.hw5 (b0 ++ b1 ++ b2 ++ b3))

/-- Decoding the encoding of any well-formed instruction, in its format, gives it back, whatever its
operands. -/
def Obligations.DecodeOfEncodeIsIdentity : Prop :=
  ∀ i : Instr, i.wf = true → decode i.format (encode i) = .ok i

/-- Whatever bytes the decoder accepts in a format, the instruction it gives is well-formed, has that
format, and is encoded by exactly those bytes: no bit is dropped and no word has two spellings. -/
def Obligations.EncodeOfDecodeIsIdentity : Prop :=
  ∀ (f : Format) (bytes : List Byte) (i : Instr), decode f bytes = .ok i →
    i.wf = true ∧ i.format = f ∧ encode i = bytes

/-! ## The pure functions (40_extractor.md, 41_endianness.md) -/

/-- R103, the partition law: a take of `w` bits and a take of the other `32 - w` split the word's bits with
no overlap and no gap, for every `w` in 0..32. -/
def Obligations.TakeBitsPartitionsTheWord : Prop :=
  ∀ (word : Word) (w : Nat), w ≤ 32 →
    (takeBits word w).1.toNat = word.toNat / 2 ^ (32 - w) ∧
    (takeBits (takeBits word w).2 (32 - w)).1.toNat = word.toNat % 2 ^ (32 - w) ∧
    (takeBits (takeBits word w).2 (32 - w)).2 = 0 ∧
    (shl32 (takeBits word w).1 (32 - w)).toNat + (takeBits (takeBits word w).2 (32 - w)).1.toNat =
      word.toNat

/-- R104, the chaining law: of widths taken one after another, at most 32 bits in all, the `j`-th value is
the word's bits `31 - s_(j-1) : 32 - s_j` and the last remainder is the word shifted left by all of them, 0
when they are 32; a take that asks for more than is left gets the unconsumed bits followed by zeros. -/
def Obligations.TakesChainFromTheTop : Prop :=
  ∀ (word : Word) (ws : List Nat), ws.sum ≤ 32 →
    (takeFields word ws).1.length = ws.length ∧
    (∀ (j w : Nat) (value : Word), ws[j]? = some w → (takeFields word ws).1[j]? = some value →
      value.toNat = word.toNat / 2 ^ (32 - (ws.take (j + 1)).sum) % 2 ^ w) ∧
    (takeFields word ws).2 = shl32 word ws.sum ∧
    (ws.sum = 32 → (takeFields word ws).2 = 0) ∧
    (∀ w, w ≤ 32 → 32 < ws.sum + w →
      (takeBits (takeFields word ws).2 w).1.toNat =
        word.toNat % 2 ^ (32 - ws.sum) * 2 ^ (ws.sum + w - 32))

/-- R109, the word round trip: fields taken with widths that sum to 32, put back in their places, are the
word. -/
def Obligations.TakenFieldsRebuildTheWord : Prop :=
  ∀ (word : Word) (ws : List Nat), ws.sum = 32 →
    fieldSum 32 ws (takeFields word ws).1 = word.toNat

/-- R120 and R121: `swap16` exchanges the two bytes; it is its own inverse and a bijection, and it is the
identity exactly when the two bytes are equal. -/
def Obligations.SwapExchangesTheBytes : Prop :=
  (∀ v : BitVec 16, (swap16 v).toNat = v.toNat % 256 * 256 + v.toNat / 256) ∧
  (∀ v : BitVec 16, swap16 (swap16 v) = v) ∧
  Function.Bijective swap16 ∧
  (∀ v : BitVec 16, swap16 v = v ↔ v.extractLsb' 8 8 = v.extractLsb' 0 8) ∧
  (∀ v : BitVec 16, swap16 v = v ↔ ∃ b : Byte, v = b ++ b)

/-! ## The reader commands (40_extractor.md, 41_endianness.md) -/

/-- R105: `NEXTWORD` is refused while halted, raises `PrecondWord` with fewer than 4 bytes left, and else
loads the big-endian word at `CUR`, moves `CUR` by 4 and sets `REM` to 32; every other piece of state is
as before. -/
def Obligations.NextWordLoadsTheWordAtCur : Prop :=
  ∀ s : State,
    (s.halt = true → exec .nextWord s = .refused .halted) ∧
    (s.halt = false → s.flen - s.cur < 4 →
      exec .nextWord s = .next { s with halt := true, err := .precondWord, record := none }) ∧
    (∀ b0 b1 b2 b3 : Byte, s.halt = false → s.cur + 4 ≤ s.flen →
      s.readByte s.cur = some b0 → s.readByte (s.cur + 1) = some b1 →
      s.readByte (s.cur + 2) = some b2 → s.readByte (s.cur + 3) = some b3 →
      exec .nextWord s = .next { s with
        w := b0 ++ b1 ++ b2 ++ b3, wWritten := true, cur := s.cur + 4, rem := 32 })

/-- Where the frame is held, `NEXTWORD` completes whenever 4 bytes are left: the bytes it needs are there. -/
def Obligations.NextWordCompletesOnAHeldFrame : Prop :=
  ∀ s : State, s.FrameHeld → s.halt = false → s.cur + 4 ≤ s.flen →
    ∃ word : Word, (∀ i : Fin 4, s.readByte (s.cur + i.val) = some (word.extractLsb' (24 - 8 * i.val) 8)) ∧
      exec .nextWord s = .next { s with w := word, wWritten := true, cur := s.cur + 4, rem := 32 }

/-- R106: `TAKEBITS w` is refused while halted, raises `BadRequest` for `w > 32` and `PrecondTake` for
`w > REM`, and else moves the top `w` bits of `W` to `V`; every other piece of state is as before. Whether
`V` then counts as written is fixed where `W` is written or `w = 0` (U6); elsewhere it is the model's
choice (log 8) and this statement leaves it open. -/
def Obligations.TakeBitsMovesTheTopBits : Prop :=
  ∀ (s : State) (w : BitVec 6),
    (s.halt = true → exec (.takeBits w) s = .refused .halted) ∧
    (s.halt = false → 32 < w.toNat →
      exec (.takeBits w) s = .next { s with halt := true, err := .badRequest, record := none }) ∧
    (s.halt = false → w.toNat ≤ 32 → s.rem.toNat < w.toNat →
      exec (.takeBits w) s = .next { s with halt := true, err := .precondTake, record := none }) ∧
    (s.halt = false → w.toNat ≤ 32 → w.toNat ≤ s.rem.toNat →
      ∃ written : Bool, ((s.wWritten = true ∨ w = 0) → written = true) ∧
        exec (.takeBits w) s = .next { s with
          v := s.w >>> (32 - w.toNat), vWritten := written, w := s.w <<< w.toNat, rem := s.rem - w })

/-- R122: `SWAP16` is refused while halted, and else swaps the two low bytes of `V` and clears the high
half; every other piece of state is as before, an unwritten `V` staying unwritten. -/
def Obligations.Swap16SwapsTheValueRegister : Prop :=
  ∀ s : State,
    (s.halt = true → exec .swap16 s = .refused .halted) ∧
    (s.halt = false → exec .swap16 s = .next { s with
      v := (s.v.extractLsb' 0 8 ++ s.v.extractLsb' 8 8).setWidth 32 })

/-- R107: `NEXTWORD` and then takes of widths that sum to at most 32 run without an error; after the `j`-th,
`V` holds the word's bits `31 - s_(j-1) : 32 - s_j` and `REM` is `32 - s_j`. -/
def Obligations.TakesAfterNextWordYieldTheFields : Prop :=
  ∀ (s : State) (b0 b1 b2 b3 : Byte) (ws : List (BitVec 6)),
    s.halt = false → s.cur + 4 ≤ s.flen →
    s.readByte s.cur = some b0 → s.readByte (s.cur + 1) = some b1 →
    s.readByte (s.cur + 2) = some b2 → s.readByte (s.cur + 3) = some b3 →
    (ws.map BitVec.toNat).sum ≤ 32 →
    ∃ (first : State) (taken : List State),
      execTrace (.nextWord :: ws.map .takeBits) s = some (first :: taken) ∧
      taken.length = ws.length ∧
      ∀ (j : Nat) (w : BitVec 6) (t : State), ws[j]? = some w → taken[j]? = some t →
        t.halt = false ∧
        t.rem.toNat = 32 - ((ws.take (j + 1)).map BitVec.toNat).sum ∧
        t.v.toNat = (b0 ++ b1 ++ b2 ++ b3).toNat / 2 ^ (32 - ((ws.take (j + 1)).map BitVec.toNat).sum)
          % 2 ^ w.toNat

/-! ## `DECODE` (42_decoder.md) -/

/-- R131: the length check comes first and is the only check. With `FLEN < 20`, `DECODE` raises
`ShortBuffer` and does nothing else, whatever the frame holds; with `FLEN >= 20` it passes, whatever the
frame holds, and gives a payload of `FLEN - 20` bytes, none for 20. While halted it is refused (R130). -/
def Obligations.DecodeChecksTheLengthFirst : Prop :=
  ∀ s : State,
    (s.halt = true → exec .decode s = .refused .halted) ∧
    (s.halt = false → s.flen < 20 →
      exec .decode s = .next { s with halt := true, err := .shortBuffer, record := none }) ∧
    (s.halt = false → 20 ≤ s.flen → s.FrameHeld →
      ∃ t r, exec .decode s = .next t ∧ t.halt = false ∧ t.err = s.err ∧ t.record = some r ∧
        r.plen = s.flen - 20)

/-- R133, R134 and R137: with `FLEN >= 20`, `DECODE` completes; the record is the one of R133's table, each
field from the frame's bytes, only the total length swapped; the reader is left with `CUR = 20`,
`W = w5`, `REM = 32`, `V = CSUM`; every other piece of the block's state is as before. That the staging copies
are blank afterwards is the model's choice (log 5). -/
def Obligations.DecodeBuildsTheRecord : Prop :=
  ∀ (s : State) (b : Nat → Byte), s.halt = false → 20 ≤ s.flen →
    (∀ a, a < 20 → s.readByte a = some (b a)) →
    exec .decode s = .next { s with
      w := b 16 ++ b 17 ++ b 18 ++ b 19
      wWritten := true
      v := (b 10 ++ b 11).setWidth 32
      vWritten := true
      cur := 20
      rem := 32
      record := some
        { ver := (b 0).extractLsb' 4 4
          ihl := (b 0).extractLsb' 0 4
          ds := (b 1).extractLsb' 2 6
          ecn := (b 1).extractLsb' 0 2
          tlen := b 3 ++ b 2
          ident := b 4 ++ b 5
          flags := (b 6).extractLsb' 6 2
          frag := (b 6).extractLsb' 0 6 ++ b 7
          ttl := b 8
          proto := b 9
          csum := b 10 ++ b 11
          src := ⟨b 12, b 13, b 14, b 15⟩
          dst := ⟨b 16, b 17, b 18, b 19⟩
          plen := s.flen - 20 }
      staged := Record.blank }

/-- R132: a successful `DECODE` is the reader commands of the table run in its order from `CUR = 0`: all of
them complete, the reader ends as they leave it, and each record register is the named slice of `V` (of `W`
for the addresses) as it stands after the step that stages it. That none
of the steps can fault is the spec's own inference (R132), and that the staging copies are blank afterwards
is the model's choice (log 5). -/
def Obligations.DecodeIsTheCommandSequence : Prop :=
  ∀ s : State, s.FrameHeld → s.halt = false → 20 ≤ s.flen →
    ∃ (t1 t2 t3 t4 t5 t6 t7 t8 t9 t10 t11 t12 t13 t14 t15 t16 t17 : State) (r : Record),
      execTrace decodeSequence { s with cur := 0 } =
        some [t1, t2, t3, t4, t5, t6, t7, t8, t9, t10, t11, t12, t13, t14, t15, t16, t17] ∧
      exec .decode s = .next { t17 with record := some r, staged := Record.blank } ∧
      r.ver = t2.v.setWidth 4 ∧ r.ihl = t3.v.setWidth 4 ∧ r.ds = t4.v.setWidth 6 ∧
      r.ecn = t5.v.setWidth 2 ∧ r.tlen = t7.v.setWidth 16 ∧
      r.ident = t9.v.setWidth 16 ∧ r.flags = t10.v.setWidth 2 ∧ r.frag = t11.v.setWidth 14 ∧
      r.ttl = t13.v.setWidth 8 ∧ r.proto = t14.v.setWidth 8 ∧ r.csum = t15.v.setWidth 16 ∧
      t16.w = r.src.b0 ++ r.src.b1 ++ r.src.b2 ++ r.src.b3 ∧
      t17.w = r.dst.b0 ++ r.dst.b1 ++ r.dst.b2 ++ r.dst.b3 ∧
      r.plen = s.flen - 20

/-- R51 and R132: a successful `DECODE` runs the five header words of the frame, each decoded in the format
of its place, one after another from `CUR = 0`, and commits what they stage with `PLEN = FLEN - 20`. The
header words as instructions are the model's reading of the table's data formats (log 7). -/
def Obligations.DecodeRunsTheHeaderWords : Prop :=
  ∀ (s : State) (b : Nat → Byte), s.halt = false → 20 ≤ s.flen →
    (∀ a, a < 20 → s.readByte a = some (b a)) →
    ∃ (i1 i2 i3 i4 i5 : Instr) (u : State),
      decode .hw1 [b 0, b 1, b 2, b 3] = .ok i1 ∧
      decode .hw2 [b 4, b 5, b 6, b 7] = .ok i2 ∧
      decode .hw3 [b 8, b 9, b 10, b 11] = .ok i3 ∧
      decode .hw4 [b 12, b 13, b 14, b 15] = .ok i4 ∧
      decode .hw5 [b 16, b 17, b 18, b 19] = .ok i5 ∧
      execSeq [i1, i2, i3, i4, i5] { s with cur := 0 } = .next u ∧
      exec .decode s = .next { u with
        record := some { u.staged with plen := s.flen - 20 }, staged := Record.blank }

/-- R133, last sentence, and R138: the record depends on `FB[0..19]` and `FLEN` alone, and so does what the
reader is left with; not on the reader's earlier contents, on later bytes, or on any earlier record. -/
def Obligations.DecodeDependsOnTheHeaderAlone : Prop :=
  ∀ s t : State, s.FrameHeld → t.FrameHeld → s.halt = false → t.halt = false →
    s.flen = t.flen → 20 ≤ s.flen → (∀ a, a < 20 → s.readByte a = t.readByte a) →
    ∃ s' t' : State, exec .decode s = .next s' ∧ exec .decode t = .next t' ∧
      s'.record.isSome = true ∧ s'.record = t'.record ∧
      s'.w = t'.w ∧ s'.v = t'.v ∧ s'.cur = t'.cur ∧ s'.rem = t'.rem

/-- R140: from the record of a completed `DECODE` the frame's five header words are recovered exactly, and
every tuple of header fields is the record of some header: `DECODE` loses no header bit and validates
none (R135). -/
def Obligations.RecordRebuildsTheHeader : Prop :=
  (∀ (s t : State) (b : Nat → Byte) (r : Record), s.halt = false →
    (∀ a, a < 20 → s.readByte a = some (b a)) → exec .decode s = .next t → t.record = some r →
    r.ver.toNat * 2 ^ 28 + r.ihl.toNat * 2 ^ 24 + r.ds.toNat * 2 ^ 18 + r.ecn.toNat * 2 ^ 16
      + (swap16 r.tlen).toNat = (b 0 ++ b 1 ++ b 2 ++ b 3).toNat ∧
    r.ident.toNat * 2 ^ 16 + r.flags.toNat * 2 ^ 14 + r.frag.toNat = (b 4 ++ b 5 ++ b 6 ++ b 7).toNat ∧
    r.ttl.toNat * 2 ^ 24 + r.proto.toNat * 2 ^ 16 + r.csum.toNat = (b 8 ++ b 9 ++ b 10 ++ b 11).toNat ∧
    r.src.b0 ++ r.src.b1 ++ r.src.b2 ++ r.src.b3 = b 12 ++ b 13 ++ b 14 ++ b 15 ∧
    r.dst.b0 ++ r.dst.b1 ++ r.dst.b2 ++ r.dst.b3 = b 16 ++ b 17 ++ b 18 ++ b 19) ∧
  (∀ r : Record, ∃ b : Nat → Byte, ∀ flen : Nat,
    Record.ofFrame b flen = { r with plen := flen - 20 })

/-! ## The header words as instructions (30_encoding.md R71 to R74; log 7) -/

/-- R71 and steps 1 to 6 of R132: a header word 1 leaves `W` empty, `V` the swapped total length, and its
fields in the staging copies. It is refused while halted and raises `PrecondWord` where the frame has no
word left. The model's reading of a data format (log 7). -/
def Obligations.HeaderWord1StagesItsFields : Prop :=
  ∀ (s : State) (ver ihl : BitVec 4) (ds : BitVec 6) (ecn : BitVec 2) (tlRaw : BitVec 16),
    (s.halt = true → exec (.hw1 ver ihl ds ecn tlRaw) s = .refused .halted) ∧
    (s.halt = false → s.flen - s.cur < 4 →
      exec (.hw1 ver ihl ds ecn tlRaw) s =
        .next { s with halt := true, err := .precondWord, record := none }) ∧
    (s.halt = false → s.cur + 4 ≤ s.flen →
      exec (.hw1 ver ihl ds ecn tlRaw) s = .next { s with
        w := 0, wWritten := true, v := (swap16 tlRaw).setWidth 32, vWritten := true,
        cur := s.cur + 4, rem := 0,
        staged := { s.staged with
          ver := ver, ihl := ihl, ds := ds, ecn := ecn, tlen := swap16 tlRaw } })

/-- R72 and steps 7 to 10 of R132: a header word 2, cut 16/2/14. The model's reading of a data format
(log 7). -/
def Obligations.HeaderWord2StagesItsFields : Prop :=
  ∀ (s : State) (ident : BitVec 16) (flags : BitVec 2) (frag : BitVec 14),
    (s.halt = true → exec (.hw2 ident flags frag) s = .refused .halted) ∧
    (s.halt = false → s.flen - s.cur < 4 →
      exec (.hw2 ident flags frag) s =
        .next { s with halt := true, err := .precondWord, record := none }) ∧
    (s.halt = false → s.cur + 4 ≤ s.flen →
      exec (.hw2 ident flags frag) s = .next { s with
        w := 0, wWritten := true, v := frag.setWidth 32, vWritten := true,
        cur := s.cur + 4, rem := 0,
        staged := { s.staged with ident := ident, flags := flags, frag := frag } })

/-- R73 and steps 11 to 14 of R132: a header word 3, cut 8/8/16, the checksum not swapped (R123). The
model's reading of a data format (log 7). -/
def Obligations.HeaderWord3StagesItsFields : Prop :=
  ∀ (s : State) (ttl proto : BitVec 8) (csum : BitVec 16),
    (s.halt = true → exec (.hw3 ttl proto csum) s = .refused .halted) ∧
    (s.halt = false → s.flen - s.cur < 4 →
      exec (.hw3 ttl proto csum) s =
        .next { s with halt := true, err := .precondWord, record := none }) ∧
    (s.halt = false → s.cur + 4 ≤ s.flen →
      exec (.hw3 ttl proto csum) s = .next { s with
        w := 0, wWritten := true, v := csum.setWidth 32, vWritten := true,
        cur := s.cur + 4, rem := 0,
        staged := { s.staged with ttl := ttl, proto := proto, csum := csum } })

/-- R74 and steps 15 and 16 of R132: header words 4 and 5 stay whole in `W` and their bytes go to the
staging copies of the addresses in wire order. The model's reading of a data format (log 7). -/
def Obligations.AddressWordsStageTheirBytes : Prop :=
  ∀ (s : State) (word : BitVec 32),
    (s.halt = true → exec (.hw4 word) s = .refused .halted ∧ exec (.hw5 word) s = .refused .halted) ∧
    (s.halt = false → s.flen - s.cur < 4 →
      exec (.hw4 word) s = .next { s with halt := true, err := .precondWord, record := none } ∧
      exec (.hw5 word) s = .next { s with halt := true, err := .precondWord, record := none }) ∧
    (s.halt = false → s.cur + 4 ≤ s.flen →
      exec (.hw4 word) s = .next { s with
        w := word, wWritten := true, cur := s.cur + 4, rem := 32,
        staged := { s.staged with
          src := ⟨word.extractLsb' 24 8, word.extractLsb' 16 8, word.extractLsb' 8 8,
            word.extractLsb' 0 8⟩ } } ∧
      exec (.hw5 word) s = .next { s with
        w := word, wWritten := true, cur := s.cur + 4, rem := 32,
        staged := { s.staged with
          dst := ⟨word.extractLsb' 24 8, word.extractLsb' 16 8, word.extractLsb' 8 8,
            word.extractLsb' 0 8⟩ } })

/-! ## Frames of the commands (10_state.md R26, R27, R39) -/

/-- R39, first sentence, and the "leaves" sentences of R105, R106, R122, R130: whatever a command answers
next, every byte of the frame buffer reads as before, `FLEN` is as before, and so is what the host is to
issue and was told; an error is recorded only together with `HALT`; only `DECODE` writes the record without
an error; `NEXTWORD` leaves `V`, `TAKEBITS` leaves `CUR`, `SWAP16` leaves `W`, `CUR` and `REM`. -/
def Obligations.CommandsLeaveTheFrame : Prop :=
  ∀ (i : Instr) (s t : State), exec i s = .next t →
    (∀ a, t.readByte a = s.readByte a) ∧ t.mem = s.mem ∧ t.flen = s.flen ∧
    t.port = s.port ∧ t.answer = s.answer ∧ t.fresh = s.fresh ∧
    (t.halt = false → t.err = s.err ∧ (i ≠ .decode → t.record = s.record)) ∧
    (t.halt = true → t.w = s.w ∧ t.wWritten = s.wWritten ∧ t.v = s.v ∧ t.vWritten = s.vWritten ∧
      t.cur = s.cur ∧ t.rem = s.rem ∧ t.staged = s.staged) ∧
    (i = .nextWord → t.v = s.v ∧ t.vWritten = s.vWritten ∧ t.staged = s.staged) ∧
    ((∃ w, i = .takeBits w) → t.cur = s.cur ∧ t.wWritten = s.wWritten ∧ t.staged = s.staged) ∧
    (i = .swap16 → t.w = s.w ∧ t.wWritten = s.wWritten ∧ t.vWritten = s.vWritten ∧ t.cur = s.cur ∧
      t.rem = s.rem ∧ t.staged = s.staged)

/-! ## Host transactions (43_framing.md) -/

/-- R165: a `CMD` is refused while halted, raises `BadRequest` on a reserved word, and else one step is the
execution of the command its word decodes to, in the state with the transaction taken. -/
def Obligations.StepRunsTheDecodedCommand : Prop :=
  ∀ (s : State) (c : Byte) (rest : List Transaction), s.port = .cmd c :: rest →
    (s.halt = true → step s = .refused .halted) ∧
    (∀ e, s.halt = false → decode .cmd8 [c] = .error e →
      step s = .next { s with
        port := rest, answer := none, halt := true, err := .badRequest, record := none }) ∧
    (∀ i, s.halt = false → decode .cmd8 [c] = .ok i →
      step s = exec i { s with port := rest, answer := none })

/-- R161, for every value of the parameter `BUF_MAX` (R7): `LOAD` is refused while halted, raises `BadRequest`
beyond `BUF_MAX`, and else takes the frame: its bytes are `FB[0..n-1]`, every address from `n` on holds no value whatever was there, `FLEN` is `n`,
`CUR`, `REM` and `VALID` are cleared, and every other piece of state is as before. -/
def Obligations.LoadTakesTheFrame : Prop :=
  ∀ (s : State) (bytes : List Byte) (rest : List Transaction), s.port = .load bytes :: rest →
    (s.halt = true → step s = .refused .halted) ∧
    (s.halt = false → s.bufMax < bytes.length →
      step s = .next { s with
        port := rest, answer := none, halt := true, err := .badRequest, record := none }) ∧
    (s.halt = false → bytes.length ≤ s.bufMax →
      ∃ m : Memory, m.wf = true ∧ m.within s.bufMax = true ∧ step s = .next { s with
          port := rest, answer := none, mem := m, flen := bytes.length,
          cur := 0, rem := 0, record := none } ∧
        ∀ t, step s = .next t → ∀ a, t.readByte a = bytes[a]?)

/-- R162: `RXFAIL` is refused while halted, and else records `SocketReadFailure` and halts. -/
def Obligations.RxfailRecordsTheFailure : Prop :=
  ∀ (s : State) (rest : List Transaction), s.port = .rxfail :: rest →
    (s.halt = true → step s = .refused .halted) ∧
    (s.halt = false → step s = .next { s with
      port := rest, answer := none, halt := true, err := .socketReadFailure, record := none })

/-- R163: which registers a `READ` answers, when, and with what; where its condition fails it is refused.
An answered `READ` changes no state of the block. -/
def Obligations.ReadAnswersByTheTable : Prop :=
  ∀ s : State,
    s.Answers .status s.status.toNat ∧
    s.Answers .valid (if s.record = none then 0 else 1) ∧
    s.Answers .halt (if s.halt = true then 1 else 0) ∧
    s.Answers .err s.err.code.toNat ∧
    (s.halt = true → ∀ r : Reg, r.always = false → s.RefusesRead r .halted) ∧
    (s.halt = false →
      s.Answers .flen s.flen ∧
      s.Answers .cur s.cur ∧
      s.Answers .rem s.rem.toNat ∧
      (s.wWritten = true → s.Answers .w s.w.toNat) ∧
      (s.wWritten = false → s.RefusesRead .w .unwritten) ∧
      (s.vWritten = true → s.Answers .v s.v.toNat) ∧
      (s.vWritten = false → s.RefusesRead .v .unwritten) ∧
      (s.record = none → ∀ r : Reg, r.ofRecord = true → s.RefusesRead r .noRecord) ∧
      (∀ d : Record, s.record = some d →
        s.Answers .ver d.ver.toNat ∧ s.Answers .ihl d.ihl.toNat ∧
        s.Answers .ds d.ds.toNat ∧ s.Answers .ecn d.ecn.toNat ∧
        s.Answers .tlen d.tlen.toNat ∧ s.Answers .ident d.ident.toNat ∧
        s.Answers .flags d.flags.toNat ∧ s.Answers .frag d.frag.toNat ∧
        s.Answers .ttl d.ttl.toNat ∧ s.Answers .proto d.proto.toNat ∧
        s.Answers .csum d.csum.toNat ∧
        s.Answers (.src 0) d.src.b0.toNat ∧ s.Answers (.src 1) d.src.b1.toNat ∧
        s.Answers (.src 2) d.src.b2.toNat ∧ s.Answers (.src 3) d.src.b3.toNat ∧
        s.Answers (.dst 0) d.dst.b0.toNat ∧ s.Answers (.dst 1) d.dst.b1.toNat ∧
        s.Answers (.dst 2) d.dst.b2.toNat ∧ s.Answers (.dst 3) d.dst.b3.toNat ∧
        s.Answers .plen d.plen))

/-- R164: `READ PAY[i]` is refused while halted, without a record, and at or beyond `PLEN`; else it answers
the byte `FB[20 + i]` and changes nothing. -/
def Obligations.ReadPayAnswersTheWindow : Prop :=
  ∀ (s : State) (i : Nat) (rest : List Transaction), s.port = .readPay i :: rest →
    (s.halt = true → step s = .refused .halted) ∧
    (s.halt = false → s.record = none → step s = .refused .noRecord) ∧
    (∀ d : Record, s.halt = false → s.record = some d → d.plen ≤ i →
      step s = .refused .payloadIndex) ∧
    (∀ (d : Record) (x : Byte), s.halt = false → s.record = some d → i < d.plen →
      s.readByte (20 + i) = some x →
      step s = .next { s with port := rest, answer := some x.toNat })

/-- R166 and R210: `RESET` is accepted in every state, the halted one too, and leaves the control state
cleared, no byte in the frame buffer, no record, and `W` and `V` unwritten; the host's later transactions
are still to come. -/
def Obligations.ResetClearsTheBlock : Prop :=
  ∀ (s : State) (rest : List Transaction), s.port = .reset :: rest →
    ∃ t, step s = .next t ∧ t.cur = 0 ∧ t.rem = 0 ∧ t.flen = 0 ∧ t.valid = false ∧ t.halt = false ∧
      t.err = .noError ∧ t.wWritten = false ∧ t.vWritten = false ∧ (∀ a, t.readByte a = none) ∧
      t.mem = [] ∧ t.record = none ∧ t.port = rest ∧ t.answer = none

/-- R160 and R168: a step takes exactly the oldest pending transaction; with none pending the block keeps
its state. -/
def Obligations.StepTakesOneTransaction : Prop :=
  (∀ s : State, s.port = [] → step s = .next s) ∧
  (∀ s t : State, step s = .next t → t.port = s.port.tail)

/-- R167: the receive cycle. From any running state, `LOAD` of a datagram of 20 to `BUF_MAX` bytes and `DECODE`
complete in two steps and give the record of that datagram, valid and not halted; of fewer than 20 bytes,
they end halted with `ShortBuffer` and no record. -/
def Obligations.ReceiveCycleDecodesTheDatagram : Prop :=
  ∀ (s : State) (bytes : List Byte) (rest : List Transaction), s.halt = false →
    s.port = .load bytes :: .cmd 0xC0 :: rest → bytes.length ≤ s.bufMax →
    ∃ t, runSteps 2 s = .next t ∧ t.port = rest ∧ t.flen = bytes.length ∧
      (20 ≤ bytes.length → t.halt = false ∧ t.valid = true ∧
        t.record = some (Record.ofFrame (fun a => bytes.getD a 0) bytes.length) ∧
        ∀ d, t.record = some d → d.plen = bytes.length - 20 ∧
          ∀ i, i < d.plen → t.readByte (20 + i) = bytes[20 + i]?) ∧
      (bytes.length < 20 → t.halt = true ∧ t.err = .shortBuffer ∧ t.record = none)

/-- R39: only `LOAD` and `RESET` write `FB` or `FLEN`; only `DECODE` gives a record; only commands and
`RESET` write `W` or `V`; only fault entry, which halts with an error and no record, and `RESET` write `HALT`
and `ERR`; a `READ` writes nothing of the block. -/
def Obligations.WritersAreAsListed : Prop :=
  ∀ (s t : State) (tr : Transaction) (rest : List Transaction), s.port = tr :: rest → step s = .next t →
    ((t.mem ≠ s.mem ∨ t.flen ≠ s.flen) → (∃ bytes, tr = .load bytes) ∨ tr = .reset) ∧
    (t.record ≠ s.record → t.record = none ∨ tr = .cmd 0xC0) ∧
    ((t.w ≠ s.w ∨ t.v ≠ s.v) → tr = .reset ∨ ∃ c, tr = .cmd c) ∧
    ((t.halt ≠ s.halt ∨ t.err ≠ s.err) →
      tr = .reset ∨ (s.halt = false ∧ t.halt = true ∧ t.err ≠ .noError ∧ t.record = none)) ∧
    ((∃ r, tr = .read r) ∨ (∃ i, tr = .readPay i) →
      t = { s with port := rest, answer := t.answer })

/-! ## Errors and refusals (60_exceptions.md) -/

/-- R187 and R188: a step that halts a running block writes the fault entry and nothing else: `HALT`, `ERR`
with an error's code, no record; every other register and the whole frame as before the transaction. -/
def Obligations.FaultEntryWritesNothingElse : Prop :=
  ∀ s t : State, s.halt = false → step s = .next t → t.halt = true →
    ∃ e : ErrCode, e ≠ .noError ∧
      t = { s with
        port := s.port.tail, answer := none, halt := true, err := e, record := none }

/-- R195: the errors each transaction can raise are those of the table. -/
def Obligations.TransactionsRaiseAsTabled : Prop :=
  ∀ (s t : State) (tr : Transaction) (rest : List Transaction), s.port = tr :: rest →
    s.halt = false → step s = .next t → t.halt = true → t.err ∈ tr.canRaise

/-- R191: what the block refuses, and nothing else. -/
def Obligations.RefusalsAreExactlyTheListed : Prop :=
  ∀ (s : State) (tr : Transaction) (rest : List Transaction), s.port = tr :: rest →
    ((∃ why, step s = .refused why) ↔
      ((s.halt = true ∧ tr.acceptedHalted = false) ∨
        (s.halt = false ∧
          (((∃ r : Reg, tr = .read r ∧ r.ofRecord = true) ∧ s.record = none) ∨
            ((∃ i, tr = .readPay i) ∧ s.record = none) ∨
            (∃ i d, tr = .readPay i ∧ s.record = some d ∧ d.plen ≤ i) ∨
            (tr = .read .w ∧ s.wWritten = false) ∨
            (tr = .read .v ∧ s.vWritten = false)))))

/-- R29 and R190: while halted, a step that is not a `RESET` leaves the whole block as it is; only `RESET`
clears `HALT` and `ERR`. -/
def Obligations.HaltStaysUntilReset : Prop :=
  ∀ s t : State, s.halt = true → step s = .next t → s.port.head? ≠ some .reset →
    t = { s with port := s.port.tail, answer := t.answer }

/-- R31 and the codes of R180: the bits of `STATUS`, and the number of each error. -/
def Obligations.StatusShowsTheThreeRegisters : Prop :=
  (∀ s : State, s.status.toNat = (if s.valid = true then 1 else 0) + (if s.halt = true then 2 else 0) +
    4 * s.err.code.toNat ∧ s.status.extractLsb' 5 3 = 0) ∧
  ErrCode.code .noError = 0 ∧ ErrCode.code .shortBuffer = 1 ∧ ErrCode.code .socketReadFailure = 2 ∧
  ErrCode.code .precondWord = 3 ∧ ErrCode.code .precondTake = 4 ∧ ErrCode.code .badRequest = 5

/-! ## Reset, invariants and what cannot be learned (10_state.md, 70_reset_and_hazards.md) -/

/-- R38: the state right after reset. That `W` and `V` are unwritten is its "holds no value"; which value
they carry is a free value of the model (log 2) and is not stated. -/
def Obligations.ResetStateIsAsListed : Prop :=
  State.reset.cur = 0 ∧ State.reset.rem = 0 ∧ State.reset.flen = 0 ∧ State.reset.valid = false ∧
  State.reset.halt = false ∧ State.reset.err = .noError ∧ State.reset.wWritten = false ∧
  State.reset.vWritten = false ∧ State.reset.record = none ∧ ∀ a, State.reset.readByte a = none

/-- The reset state meets the invariants of R37, for every legal `BUF_MAX` (R7); `State.reset` is the one for
the default 1024. -/
def Obligations.ResetMeetsTheInvariants : Prop :=
  (∀ n, 20 ≤ n → (State.resetOf n).Inv ∧ (State.resetOf n).bufMax = n ∧ (State.resetOf n).mem.wf = true) ∧
  State.reset = State.resetOf 1024

/-- R37: every step, from every state that meets the invariants, whatever the host issues, gives a state
that meets them, with its memory in canonical form and within `FB`. -/
def Obligations.StepKeepsTheInvariants : Prop :=
  ∀ s t : State, s.Inv → step s = .next t →
    t.Inv ∧ t.mem.wf = true ∧ t.mem.within t.bufMax = true

/-- Under the invariants no step faults: no transaction reads a byte that holds no value. -/
def Obligations.InvariantsRuleOutFaults : Prop :=
  ∀ s : State, s.Inv → ∀ f, step s ≠ .fault f

/-- R37 item 7, step by step: `NEXTWORD` and `DECODE` make the consumed bits of `W` zero, `TAKEBITS` and
`SWAP16` keep them so, and no transaction but `LOAD` and `RESET` can make one of them non-zero. -/
def Obligations.ConsumedBitsOfTheWordAreZero : Prop :=
  (∀ s t : State, exec .nextWord s = .next t → t.halt = false → t.ConsumedZero) ∧
  (∀ s t : State, exec .decode s = .next t → t.halt = false → t.ConsumedZero) ∧
  (∀ s t : State, s.Inv → s.ConsumedZero → step s = .next t →
    s.port.head? ≠ some .reset → (∀ bytes, s.port.head? ≠ some (.load bytes)) → t.ConsumedZero)

/-- R37 item 8: after a completed `TAKEBITS w`, `V < 2^w`; after a completed `SWAP16`, `V < 2^16`. -/
def Obligations.ValuesFitTheirWidth : Prop :=
  (∀ (s t : State) (w : BitVec 6), exec (.takeBits w) s = .next t → t.halt = false →
    t.v.toNat < 2 ^ w.toNat) ∧
  (∀ s t : State, exec .swap16 s = .next t → t.v.toNat < 2 ^ 16)

/-- R31 and R180, and 95_test_vectors.md, end of 2.7: in every state that meets the invariants `STATUS` is one
of seven values, each error giving its own, and no error 0x00 without a record and 0x01 with one. -/
def Obligations.StatusHasSevenValues : Prop :=
  ∀ s : State, s.Inv →
    s.status =
      match s.err with
      | .noError => if s.record = none then 0x00 else 0x01
      | .shortBuffer => 0x06
      | .socketReadFailure => 0x0A
      | .precondWord => 0x0E
      | .precondTake => 0x12
      | .badRequest => 0x16

/-- R211: what an unwritten `W` or `V` holds reaches nothing. Two states that differ at most in that take
the same step: the same refusal or fault, or next states that again differ at most in that, so with the
same record and the same answer to the host. -/
def Obligations.UnwrittenRegistersAreNeverLearned : Prop :=
  ∀ s t : State, s.SameButUnwritten t → SameOutcome (step s) (step t)

/-! ## The parameter `BUF_MAX` (00_scope.md R7, 10_state.md R20) -/

/-- R7: `BUF_MAX` is a parameter of the instance. No instruction and no step changes it, not even `RESET`. Its
place, a field of State, is the model's choice (log 9). -/
def Obligations.CapacityIsNeverChanged : Prop :=
  (∀ (i : Instr) (s t : State), exec i s = .next t → t.bufMax = s.bufMax) ∧
  (∀ s t : State, step s = .next t → t.bufMax = s.bufMax)

/-- R20: `CUR`, `FLEN` and `PLEN` are `ceil(log2(BUF_MAX + 1))` bits wide, the smallest width that holds
0..`BUF_MAX`: 11 bits for 1024. Every count the block holds fits it, in every state that meets the
invariants, so that no width is ever exceeded; `PLEN` is at most `BUF_MAX - 20` (R7). -/
def Obligations.LengthRegistersFitTheirWidth : Prop :=
  (∀ n, 1 ≤ n → Config.lenWidth n = Nat.clog 2 (n + 1)) ∧ Config.lenWidth 1024 = 11 ∧
  (∀ s : State, s.Inv → s.LengthsFit ∧ ∀ r, s.record = some r → r.plen ≤ s.bufMax - 20)
end

