-- ==== Sys2Proof/Laws/State.lean ====
section
/-! SUPPORT. One lemma per field and update of `State`: what each named update writes and what it leaves. -/

namespace Sys2Proof.Machine

/-! ## `State.faultEntry` -/

@[simp] theorem State.faultEntry_bufMax (e : ErrCode) (s : State) : (s.faultEntry e).bufMax = s.bufMax := rfl
@[simp] theorem State.faultEntry_w (e : ErrCode) (s : State) : (s.faultEntry e).w = s.w := rfl
@[simp] theorem State.faultEntry_wWritten (e : ErrCode) (s : State) : (s.faultEntry e).wWritten = s.wWritten := rfl
@[simp] theorem State.faultEntry_v (e : ErrCode) (s : State) : (s.faultEntry e).v = s.v := rfl
@[simp] theorem State.faultEntry_vWritten (e : ErrCode) (s : State) : (s.faultEntry e).vWritten = s.vWritten := rfl
@[simp] theorem State.faultEntry_cur (e : ErrCode) (s : State) : (s.faultEntry e).cur = s.cur := rfl
@[simp] theorem State.faultEntry_rem (e : ErrCode) (s : State) : (s.faultEntry e).rem = s.rem := rfl
@[simp] theorem State.faultEntry_mem (e : ErrCode) (s : State) : (s.faultEntry e).mem = s.mem := rfl
@[simp] theorem State.faultEntry_flen (e : ErrCode) (s : State) : (s.faultEntry e).flen = s.flen := rfl
@[simp] theorem State.faultEntry_halt (e : ErrCode) (s : State) : (s.faultEntry e).halt = true := rfl
@[simp] theorem State.faultEntry_err (e : ErrCode) (s : State) : (s.faultEntry e).err = e := rfl
@[simp] theorem State.faultEntry_record (e : ErrCode) (s : State) : (s.faultEntry e).record = none := rfl
@[simp] theorem State.faultEntry_staged (e : ErrCode) (s : State) : (s.faultEntry e).staged = s.staged := rfl
@[simp] theorem State.faultEntry_port (e : ErrCode) (s : State) : (s.faultEntry e).port = s.port := rfl
@[simp] theorem State.faultEntry_answer (e : ErrCode) (s : State) : (s.faultEntry e).answer = s.answer := rfl
@[simp] theorem State.faultEntry_fresh (e : ErrCode) (s : State) : (s.faultEntry e).fresh = s.fresh := rfl

/-! ## `State.resetBlock` -/

@[simp] theorem State.resetBlock_bufMax (s : State) : (s.resetBlock).bufMax = s.bufMax := rfl
@[simp] theorem State.resetBlock_w (s : State) : (s.resetBlock).w = Config.unwrittenW (s.fresh + 1) := rfl
@[simp] theorem State.resetBlock_wWritten (s : State) : (s.resetBlock).wWritten = false := rfl
@[simp] theorem State.resetBlock_v (s : State) : (s.resetBlock).v = Config.unwrittenV (s.fresh + 1) := rfl
@[simp] theorem State.resetBlock_vWritten (s : State) : (s.resetBlock).vWritten = false := rfl
@[simp] theorem State.resetBlock_cur (s : State) : (s.resetBlock).cur = 0 := rfl
@[simp] theorem State.resetBlock_rem (s : State) : (s.resetBlock).rem = 0 := rfl
@[simp] theorem State.resetBlock_mem (s : State) : (s.resetBlock).mem = [] := rfl
@[simp] theorem State.resetBlock_flen (s : State) : (s.resetBlock).flen = 0 := rfl
@[simp] theorem State.resetBlock_halt (s : State) : (s.resetBlock).halt = false := rfl
@[simp] theorem State.resetBlock_err (s : State) : (s.resetBlock).err = .noError := rfl
@[simp] theorem State.resetBlock_record (s : State) : (s.resetBlock).record = none := rfl
@[simp] theorem State.resetBlock_staged (s : State) : (s.resetBlock).staged = Record.blank := rfl
@[simp] theorem State.resetBlock_port (s : State) : (s.resetBlock).port = s.port := rfl
@[simp] theorem State.resetBlock_answer (s : State) : (s.resetBlock).answer = s.answer := rfl
@[simp] theorem State.resetBlock_fresh (s : State) : (s.resetBlock).fresh = s.fresh + 1 := rfl

/-! ## `State.beginWord` -/

@[simp] theorem State.beginWord_bufMax (x : Word) (s : State) : (s.beginWord x).bufMax = s.bufMax := rfl
@[simp] theorem State.beginWord_w (x : Word) (s : State) : (s.beginWord x).w = x := rfl
@[simp] theorem State.beginWord_wWritten (x : Word) (s : State) : (s.beginWord x).wWritten = true := rfl
@[simp] theorem State.beginWord_v (x : Word) (s : State) : (s.beginWord x).v = s.v := rfl
@[simp] theorem State.beginWord_vWritten (x : Word) (s : State) : (s.beginWord x).vWritten = s.vWritten := rfl
@[simp] theorem State.beginWord_cur (x : Word) (s : State) : (s.beginWord x).cur = s.cur + 4 := rfl
@[simp] theorem State.beginWord_rem (x : Word) (s : State) : (s.beginWord x).rem = 32 := rfl
@[simp] theorem State.beginWord_mem (x : Word) (s : State) : (s.beginWord x).mem = s.mem := rfl
@[simp] theorem State.beginWord_flen (x : Word) (s : State) : (s.beginWord x).flen = s.flen := rfl
@[simp] theorem State.beginWord_halt (x : Word) (s : State) : (s.beginWord x).halt = s.halt := rfl
@[simp] theorem State.beginWord_err (x : Word) (s : State) : (s.beginWord x).err = s.err := rfl
@[simp] theorem State.beginWord_record (x : Word) (s : State) : (s.beginWord x).record = s.record := rfl
@[simp] theorem State.beginWord_staged (x : Word) (s : State) : (s.beginWord x).staged = s.staged := rfl
@[simp] theorem State.beginWord_port (x : Word) (s : State) : (s.beginWord x).port = s.port := rfl
@[simp] theorem State.beginWord_answer (x : Word) (s : State) : (s.beginWord x).answer = s.answer := rfl
@[simp] theorem State.beginWord_fresh (x : Word) (s : State) : (s.beginWord x).fresh = s.fresh := rfl

/-! ## `State.takeTop` -/

@[simp] theorem State.takeTop_bufMax (n : Nat) (s : State) : (s.takeTop n).bufMax = s.bufMax := rfl
@[simp] theorem State.takeTop_w (n : Nat) (s : State) : (s.takeTop n).w = (takeBits s.w n).2 := rfl
@[simp] theorem State.takeTop_wWritten (n : Nat) (s : State) : (s.takeTop n).wWritten = s.wWritten := rfl
@[simp] theorem State.takeTop_v (n : Nat) (s : State) : (s.takeTop n).v = (takeBits s.w n).1 := rfl
@[simp] theorem State.takeTop_vWritten (n : Nat) (s : State) : (s.takeTop n).vWritten = (s.wWritten || n == 0) := rfl
@[simp] theorem State.takeTop_cur (n : Nat) (s : State) : (s.takeTop n).cur = s.cur := rfl
@[simp] theorem State.takeTop_rem (n : Nat) (s : State) : (s.takeTop n).rem = s.rem - BitVec.ofNat 6 n := rfl
@[simp] theorem State.takeTop_mem (n : Nat) (s : State) : (s.takeTop n).mem = s.mem := rfl
@[simp] theorem State.takeTop_flen (n : Nat) (s : State) : (s.takeTop n).flen = s.flen := rfl
@[simp] theorem State.takeTop_halt (n : Nat) (s : State) : (s.takeTop n).halt = s.halt := rfl
@[simp] theorem State.takeTop_err (n : Nat) (s : State) : (s.takeTop n).err = s.err := rfl
@[simp] theorem State.takeTop_record (n : Nat) (s : State) : (s.takeTop n).record = s.record := rfl
@[simp] theorem State.takeTop_staged (n : Nat) (s : State) : (s.takeTop n).staged = s.staged := rfl
@[simp] theorem State.takeTop_port (n : Nat) (s : State) : (s.takeTop n).port = s.port := rfl
@[simp] theorem State.takeTop_answer (n : Nat) (s : State) : (s.takeTop n).answer = s.answer := rfl
@[simp] theorem State.takeTop_fresh (n : Nat) (s : State) : (s.takeTop n).fresh = s.fresh := rfl

/-! ## `State.swapValue` -/

@[simp] theorem State.swapValue_bufMax (s : State) : (s.swapValue).bufMax = s.bufMax := rfl
@[simp] theorem State.swapValue_w (s : State) : (s.swapValue).w = s.w := rfl
@[simp] theorem State.swapValue_wWritten (s : State) : (s.swapValue).wWritten = s.wWritten := rfl
@[simp] theorem State.swapValue_v (s : State) : (s.swapValue).v = (Machine.swap16 (s.v.setWidth 16)).setWidth 32 := rfl
@[simp] theorem State.swapValue_vWritten (s : State) : (s.swapValue).vWritten = s.vWritten := rfl
@[simp] theorem State.swapValue_cur (s : State) : (s.swapValue).cur = s.cur := rfl
@[simp] theorem State.swapValue_rem (s : State) : (s.swapValue).rem = s.rem := rfl
@[simp] theorem State.swapValue_mem (s : State) : (s.swapValue).mem = s.mem := rfl
@[simp] theorem State.swapValue_flen (s : State) : (s.swapValue).flen = s.flen := rfl
@[simp] theorem State.swapValue_halt (s : State) : (s.swapValue).halt = s.halt := rfl
@[simp] theorem State.swapValue_err (s : State) : (s.swapValue).err = s.err := rfl
@[simp] theorem State.swapValue_record (s : State) : (s.swapValue).record = s.record := rfl
@[simp] theorem State.swapValue_staged (s : State) : (s.swapValue).staged = s.staged := rfl
@[simp] theorem State.swapValue_port (s : State) : (s.swapValue).port = s.port := rfl
@[simp] theorem State.swapValue_answer (s : State) : (s.swapValue).answer = s.answer := rfl
@[simp] theorem State.swapValue_fresh (s : State) : (s.swapValue).fresh = s.fresh := rfl

/-! ## `State.stage` -/

@[simp] theorem State.stage_bufMax (put : Record → Record) (s : State) : (s.stage put).bufMax = s.bufMax := rfl
@[simp] theorem State.stage_w (put : Record → Record) (s : State) : (s.stage put).w = s.w := rfl
@[simp] theorem State.stage_wWritten (put : Record → Record) (s : State) : (s.stage put).wWritten = s.wWritten := rfl
@[simp] theorem State.stage_v (put : Record → Record) (s : State) : (s.stage put).v = s.v := rfl
@[simp] theorem State.stage_vWritten (put : Record → Record) (s : State) : (s.stage put).vWritten = s.vWritten := rfl
@[simp] theorem State.stage_cur (put : Record → Record) (s : State) : (s.stage put).cur = s.cur := rfl
@[simp] theorem State.stage_rem (put : Record → Record) (s : State) : (s.stage put).rem = s.rem := rfl
@[simp] theorem State.stage_mem (put : Record → Record) (s : State) : (s.stage put).mem = s.mem := rfl
@[simp] theorem State.stage_flen (put : Record → Record) (s : State) : (s.stage put).flen = s.flen := rfl
@[simp] theorem State.stage_halt (put : Record → Record) (s : State) : (s.stage put).halt = s.halt := rfl
@[simp] theorem State.stage_err (put : Record → Record) (s : State) : (s.stage put).err = s.err := rfl
@[simp] theorem State.stage_record (put : Record → Record) (s : State) : (s.stage put).record = s.record := rfl
@[simp] theorem State.stage_staged (put : Record → Record) (s : State) : (s.stage put).staged = put s.staged := rfl
@[simp] theorem State.stage_port (put : Record → Record) (s : State) : (s.stage put).port = s.port := rfl
@[simp] theorem State.stage_answer (put : Record → Record) (s : State) : (s.stage put).answer = s.answer := rfl
@[simp] theorem State.stage_fresh (put : Record → Record) (s : State) : (s.stage put).fresh = s.fresh := rfl

/-! ## `State.stagePlen` -/

@[simp] theorem State.stagePlen_bufMax (s : State) : (s.stagePlen).bufMax = s.bufMax := by rfl
@[simp] theorem State.stagePlen_w (s : State) : (s.stagePlen).w = s.w := by rfl
@[simp] theorem State.stagePlen_wWritten (s : State) : (s.stagePlen).wWritten = s.wWritten := by rfl
@[simp] theorem State.stagePlen_v (s : State) : (s.stagePlen).v = s.v := by rfl
@[simp] theorem State.stagePlen_vWritten (s : State) : (s.stagePlen).vWritten = s.vWritten := by rfl
@[simp] theorem State.stagePlen_cur (s : State) : (s.stagePlen).cur = s.cur := by rfl
@[simp] theorem State.stagePlen_rem (s : State) : (s.stagePlen).rem = s.rem := by rfl
@[simp] theorem State.stagePlen_mem (s : State) : (s.stagePlen).mem = s.mem := by rfl
@[simp] theorem State.stagePlen_flen (s : State) : (s.stagePlen).flen = s.flen := by rfl
@[simp] theorem State.stagePlen_halt (s : State) : (s.stagePlen).halt = s.halt := by rfl
@[simp] theorem State.stagePlen_err (s : State) : (s.stagePlen).err = s.err := by rfl
@[simp] theorem State.stagePlen_record (s : State) : (s.stagePlen).record = s.record := by rfl
@[simp] theorem State.stagePlen_staged (s : State) : (s.stagePlen).staged = { s.staged with plen := s.flen - 20 } := by rfl
@[simp] theorem State.stagePlen_port (s : State) : (s.stagePlen).port = s.port := by rfl
@[simp] theorem State.stagePlen_answer (s : State) : (s.stagePlen).answer = s.answer := by rfl
@[simp] theorem State.stagePlen_fresh (s : State) : (s.stagePlen).fresh = s.fresh := by rfl

/-! ## `State.commit` -/

@[simp] theorem State.commit_bufMax (s : State) : (s.commit).bufMax = s.bufMax := rfl
@[simp] theorem State.commit_w (s : State) : (s.commit).w = s.w := rfl
@[simp] theorem State.commit_wWritten (s : State) : (s.commit).wWritten = s.wWritten := rfl
@[simp] theorem State.commit_v (s : State) : (s.commit).v = s.v := rfl
@[simp] theorem State.commit_vWritten (s : State) : (s.commit).vWritten = s.vWritten := rfl
@[simp] theorem State.commit_cur (s : State) : (s.commit).cur = s.cur := rfl
@[simp] theorem State.commit_rem (s : State) : (s.commit).rem = s.rem := rfl
@[simp] theorem State.commit_mem (s : State) : (s.commit).mem = s.mem := rfl
@[simp] theorem State.commit_flen (s : State) : (s.commit).flen = s.flen := rfl
@[simp] theorem State.commit_halt (s : State) : (s.commit).halt = s.halt := rfl
@[simp] theorem State.commit_err (s : State) : (s.commit).err = s.err := rfl
@[simp] theorem State.commit_record (s : State) : (s.commit).record = some s.staged := rfl
@[simp] theorem State.commit_staged (s : State) : (s.commit).staged = Record.blank := rfl
@[simp] theorem State.commit_port (s : State) : (s.commit).port = s.port := rfl
@[simp] theorem State.commit_answer (s : State) : (s.commit).answer = s.answer := rfl
@[simp] theorem State.commit_fresh (s : State) : (s.commit).fresh = s.fresh := rfl

/-! ## `State.loadFrame` -/

@[simp] theorem State.loadFrame_bufMax (bytes : List Byte) (s : State) : (s.loadFrame bytes).bufMax = s.bufMax := rfl
@[simp] theorem State.loadFrame_w (bytes : List Byte) (s : State) : (s.loadFrame bytes).w = s.w := rfl
@[simp] theorem State.loadFrame_wWritten (bytes : List Byte) (s : State) : (s.loadFrame bytes).wWritten = s.wWritten := rfl
@[simp] theorem State.loadFrame_v (bytes : List Byte) (s : State) : (s.loadFrame bytes).v = s.v := rfl
@[simp] theorem State.loadFrame_vWritten (bytes : List Byte) (s : State) : (s.loadFrame bytes).vWritten = s.vWritten := rfl
@[simp] theorem State.loadFrame_cur (bytes : List Byte) (s : State) : (s.loadFrame bytes).cur = 0 := rfl
@[simp] theorem State.loadFrame_rem (bytes : List Byte) (s : State) : (s.loadFrame bytes).rem = 0 := rfl
@[simp] theorem State.loadFrame_mem (bytes : List Byte) (s : State) : (s.loadFrame bytes).mem = Memory.writeBytes 0 bytes [] := rfl
@[simp] theorem State.loadFrame_flen (bytes : List Byte) (s : State) : (s.loadFrame bytes).flen = bytes.length := rfl
@[simp] theorem State.loadFrame_halt (bytes : List Byte) (s : State) : (s.loadFrame bytes).halt = s.halt := rfl
@[simp] theorem State.loadFrame_err (bytes : List Byte) (s : State) : (s.loadFrame bytes).err = s.err := rfl
@[simp] theorem State.loadFrame_record (bytes : List Byte) (s : State) : (s.loadFrame bytes).record = none := rfl
@[simp] theorem State.loadFrame_staged (bytes : List Byte) (s : State) : (s.loadFrame bytes).staged = s.staged := rfl
@[simp] theorem State.loadFrame_port (bytes : List Byte) (s : State) : (s.loadFrame bytes).port = s.port := rfl
@[simp] theorem State.loadFrame_answer (bytes : List Byte) (s : State) : (s.loadFrame bytes).answer = s.answer := rfl
@[simp] theorem State.loadFrame_fresh (bytes : List Byte) (s : State) : (s.loadFrame bytes).fresh = s.fresh := rfl

/-! ## `State.reply` -/

@[simp] theorem State.reply_bufMax (x : Nat) (s : State) : (s.reply x).bufMax = s.bufMax := rfl
@[simp] theorem State.reply_w (x : Nat) (s : State) : (s.reply x).w = s.w := rfl
@[simp] theorem State.reply_wWritten (x : Nat) (s : State) : (s.reply x).wWritten = s.wWritten := rfl
@[simp] theorem State.reply_v (x : Nat) (s : State) : (s.reply x).v = s.v := rfl
@[simp] theorem State.reply_vWritten (x : Nat) (s : State) : (s.reply x).vWritten = s.vWritten := rfl
@[simp] theorem State.reply_cur (x : Nat) (s : State) : (s.reply x).cur = s.cur := rfl
@[simp] theorem State.reply_rem (x : Nat) (s : State) : (s.reply x).rem = s.rem := rfl
@[simp] theorem State.reply_mem (x : Nat) (s : State) : (s.reply x).mem = s.mem := rfl
@[simp] theorem State.reply_flen (x : Nat) (s : State) : (s.reply x).flen = s.flen := rfl
@[simp] theorem State.reply_halt (x : Nat) (s : State) : (s.reply x).halt = s.halt := rfl
@[simp] theorem State.reply_err (x : Nat) (s : State) : (s.reply x).err = s.err := rfl
@[simp] theorem State.reply_record (x : Nat) (s : State) : (s.reply x).record = s.record := rfl
@[simp] theorem State.reply_staged (x : Nat) (s : State) : (s.reply x).staged = s.staged := rfl
@[simp] theorem State.reply_port (x : Nat) (s : State) : (s.reply x).port = s.port := rfl
@[simp] theorem State.reply_answer (x : Nat) (s : State) : (s.reply x).answer = some x := rfl
@[simp] theorem State.reply_fresh (x : Nat) (s : State) : (s.reply x).fresh = s.fresh := rfl

/-! ## `State.accept` -/

@[simp] theorem State.accept_bufMax (rest : List Transaction) (s : State) : (s.accept rest).bufMax = s.bufMax := rfl
@[simp] theorem State.accept_w (rest : List Transaction) (s : State) : (s.accept rest).w = s.w := rfl
@[simp] theorem State.accept_wWritten (rest : List Transaction) (s : State) : (s.accept rest).wWritten = s.wWritten := rfl
@[simp] theorem State.accept_v (rest : List Transaction) (s : State) : (s.accept rest).v = s.v := rfl
@[simp] theorem State.accept_vWritten (rest : List Transaction) (s : State) : (s.accept rest).vWritten = s.vWritten := rfl
@[simp] theorem State.accept_cur (rest : List Transaction) (s : State) : (s.accept rest).cur = s.cur := rfl
@[simp] theorem State.accept_rem (rest : List Transaction) (s : State) : (s.accept rest).rem = s.rem := rfl
@[simp] theorem State.accept_mem (rest : List Transaction) (s : State) : (s.accept rest).mem = s.mem := rfl
@[simp] theorem State.accept_flen (rest : List Transaction) (s : State) : (s.accept rest).flen = s.flen := rfl
@[simp] theorem State.accept_halt (rest : List Transaction) (s : State) : (s.accept rest).halt = s.halt := rfl
@[simp] theorem State.accept_err (rest : List Transaction) (s : State) : (s.accept rest).err = s.err := rfl
@[simp] theorem State.accept_record (rest : List Transaction) (s : State) : (s.accept rest).record = s.record := rfl
@[simp] theorem State.accept_staged (rest : List Transaction) (s : State) : (s.accept rest).staged = s.staged := rfl
@[simp] theorem State.accept_port (rest : List Transaction) (s : State) : (s.accept rest).port = rest := rfl
@[simp] theorem State.accept_answer (rest : List Transaction) (s : State) : (s.accept rest).answer = none := rfl
@[simp] theorem State.accept_fresh (rest : List Transaction) (s : State) : (s.accept rest).fresh = s.fresh := rfl

/-! ## `State.issueCommand` -/

@[simp] theorem State.issueCommand_bufMax (c : Byte) (s : State) : (s.issueCommand c).bufMax = s.bufMax := rfl
@[simp] theorem State.issueCommand_w (c : Byte) (s : State) : (s.issueCommand c).w = s.w := rfl
@[simp] theorem State.issueCommand_wWritten (c : Byte) (s : State) : (s.issueCommand c).wWritten = s.wWritten := rfl
@[simp] theorem State.issueCommand_v (c : Byte) (s : State) : (s.issueCommand c).v = s.v := rfl
@[simp] theorem State.issueCommand_vWritten (c : Byte) (s : State) : (s.issueCommand c).vWritten = s.vWritten := rfl
@[simp] theorem State.issueCommand_cur (c : Byte) (s : State) : (s.issueCommand c).cur = s.cur := rfl
@[simp] theorem State.issueCommand_rem (c : Byte) (s : State) : (s.issueCommand c).rem = s.rem := rfl
@[simp] theorem State.issueCommand_mem (c : Byte) (s : State) : (s.issueCommand c).mem = s.mem := rfl
@[simp] theorem State.issueCommand_flen (c : Byte) (s : State) : (s.issueCommand c).flen = s.flen := rfl
@[simp] theorem State.issueCommand_halt (c : Byte) (s : State) : (s.issueCommand c).halt = s.halt := rfl
@[simp] theorem State.issueCommand_err (c : Byte) (s : State) : (s.issueCommand c).err = s.err := rfl
@[simp] theorem State.issueCommand_record (c : Byte) (s : State) : (s.issueCommand c).record = s.record := rfl
@[simp] theorem State.issueCommand_staged (c : Byte) (s : State) : (s.issueCommand c).staged = s.staged := rfl
@[simp] theorem State.issueCommand_port (c : Byte) (s : State) : (s.issueCommand c).port = .cmd c :: s.port := rfl
@[simp] theorem State.issueCommand_answer (c : Byte) (s : State) : (s.issueCommand c).answer = s.answer := rfl
@[simp] theorem State.issueCommand_fresh (c : Byte) (s : State) : (s.issueCommand c).fresh = s.fresh := rfl

/-! ## `State.resetOf` -/

@[simp] theorem State.resetOf_bufMax (n : Nat) : (State.resetOf n).bufMax = n := rfl
@[simp] theorem State.resetOf_wWritten (n : Nat) : (State.resetOf n).wWritten = false := rfl
@[simp] theorem State.resetOf_vWritten (n : Nat) : (State.resetOf n).vWritten = false := rfl
@[simp] theorem State.resetOf_cur (n : Nat) : (State.resetOf n).cur = 0 := rfl
@[simp] theorem State.resetOf_rem (n : Nat) : (State.resetOf n).rem = 0 := rfl
@[simp] theorem State.resetOf_mem (n : Nat) : (State.resetOf n).mem = [] := rfl
@[simp] theorem State.resetOf_flen (n : Nat) : (State.resetOf n).flen = 0 := rfl
@[simp] theorem State.resetOf_halt (n : Nat) : (State.resetOf n).halt = false := rfl
@[simp] theorem State.resetOf_err (n : Nat) : (State.resetOf n).err = .noError := rfl
@[simp] theorem State.resetOf_record (n : Nat) : (State.resetOf n).record = none := rfl
@[simp] theorem State.resetOf_staged (n : Nat) : (State.resetOf n).staged = Record.blank := rfl
@[simp] theorem State.resetOf_port (n : Nat) : (State.resetOf n).port = [] := rfl
@[simp] theorem State.resetOf_answer (n : Nat) : (State.resetOf n).answer = none := rfl
@[simp] theorem State.resetOf_fresh (n : Nat) : (State.resetOf n).fresh = 0 := rfl

/-! ## Reading through an update -/

/-- Where the frame buffer and `FLEN` are the same, every byte reads the same. -/
theorem State.readByte_congr {s t : State} (hm : t.mem = s.mem) (hf : t.flen = s.flen) (a : Nat) :
    t.readByte a = s.readByte a := by
  unfold State.readByte; rw [hm, hf]

end Sys2Proof.Machine
end

