-- ==== Sys2Proof/Laws/Memory.lean ====
section
/-! SUPPORT. The memory laws: read after write, the canonical form and its keeping, and what a held frame
reads as. -/

namespace Sys2Proof.Machine

/-! ## One byte -/

/-- A read after a write to the same address gives the byte written. -/
@[simp] theorem Memory.read_write_same (m : Memory) (a : Nat) (b : Byte) :
    (Memory.write a b m).read a = some b := by
  induction m with
  | nil => simp [Memory.write, Memory.read]
  | cons c m ih =>
    obtain ⟨a', b'⟩ := c
    unfold Memory.write
    split
    · simp [Memory.read]
    · split
      · simp [Memory.read]
      · rename_i h; simp [Memory.read, Ne.symm h, ih]

/-- A write leaves every other address alone. -/
theorem Memory.read_write_other (m : Memory) {a x : Nat} (b : Byte) (h : x ≠ a) :
    (Memory.write a b m).read x = m.read x := by
  induction m with
  | nil => simp [Memory.write, Memory.read, Ne.symm h]
  | cons c m ih =>
    obtain ⟨a', b'⟩ := c
    unfold Memory.write
    split
    · simp [Memory.read, Ne.symm h]
    · split
      · rename_i e; subst e; simp [Memory.read, Ne.symm h]
      · simp [Memory.read, ih]

/-- A cell of a memory after a write is the written one or was there. -/
theorem Memory.mem_write {m : Memory} {a : Nat} {b : Byte} {c : Host.Cell} (h : c ∈ Memory.write a b m) :
    c = (a, b) ∨ c ∈ m := by
  induction m with
  | nil => simpa [Memory.write] using h
  | cons d m ih =>
    unfold Memory.write at h
    split at h
    · simpa using h
    · split at h
      · rcases List.mem_cons.1 h with h | h
        · exact .inl h
        · exact .inr (List.mem_cons_of_mem _ h)
      · rcases List.mem_cons.1 h with h | h
        · exact .inr (h ▸ List.mem_cons_self)
        · exact (ih h).imp id (List.mem_cons_of_mem _)

theorem Memory.wf_iff (m : Memory) :
    m.wf = true ↔ m.Pairwise (fun c d => c.1 < d.1) := by
  simp [Memory.wf]

theorem Memory.within_iff (n : Nat) (m : Memory) : m.within n = true ↔ ∀ c ∈ m, c.1 < n := by
  simp [Memory.within]

/-- A write at an address of `FB` stays within `FB`. -/
theorem Memory.write_within {n : Nat} {m : Memory} (h : m.within n = true) {a : Nat} (ha : a < n) (b : Byte) :
    (Memory.write a b m).within n = true := by
  rw [Memory.within_iff] at h ⊢
  exact fun c hc => (Memory.mem_write hc).elim (fun e => e ▸ ha) (h c)

/-- A write keeps the canonical form. -/
theorem Memory.write_wf {m : Memory} (hs : m.wf = true) (a : Nat) (b : Byte) :
    (Memory.write a b m).wf = true := by
  rw [Memory.wf_iff] at hs ⊢
  induction m with
  | nil => simp [Memory.write]
  | cons d m ih =>
    obtain ⟨a', b'⟩ := d
    have ⟨h1, h2⟩ := List.pairwise_cons.1 hs
    unfold Memory.write
    split
    · rename_i hlt
      refine List.pairwise_cons.2 ⟨fun c hc => ?_, hs⟩
      rcases List.mem_cons.1 hc with e | hc
      · exact e ▸ hlt
      · exact Nat.lt_trans hlt (h1 c hc)
    · split
      · rename_i e; subst e
        exact List.pairwise_cons.2 ⟨h1, h2⟩
      · refine List.pairwise_cons.2 ⟨fun c hc => ?_, ih h2⟩
        rcases Memory.mem_write hc with e | hc
        · subst e; simp only; omega
        · exact h1 c hc

/-! ## Many bytes, and a whole frame -/

/-- Writing bytes keeps the canonical form. -/
theorem Memory.writeBytes_wf {m : Memory} (h : m.wf = true) (bs : List Byte) :
    ∀ a, (Memory.writeBytes a bs m).wf = true := by
  induction bs with
  | nil => intro _; exact h
  | cons b bs ih => exact fun a => Memory.write_wf (ih (a + 1)) a b

/-- Writing bytes at addresses of `FB` stays within `FB`. -/
theorem Memory.writeBytes_within {n : Nat} {m : Memory} (h : m.within n = true) (bs : List Byte) :
    ∀ a, a + bs.length ≤ n → (Memory.writeBytes a bs m).within n = true := by
  induction bs with
  | nil => intro _ _; exact h
  | cons b bs ih =>
    intro a ha
    rw [List.length_cons] at ha
    exact Memory.write_within (ih (a + 1) (by omega)) (by omega) b

/-- The bytes written read back, every other address as before. -/
theorem Memory.read_writeBytes (m : Memory) (bs : List Byte) :
    ∀ a x, (Memory.writeBytes a bs m).read x =
      if a ≤ x ∧ x < a + bs.length then bs[x - a]? else m.read x := by
  induction bs with
  | nil => intro a x; simp only [Memory.writeBytes, List.length_nil]; rw [if_neg (by omega)]
  | cons b bs ih =>
    intro a x
    simp only [Memory.writeBytes, List.length_cons]
    by_cases hx : x = a
    · subst hx; simp
    · rw [Memory.read_write_other _ _ hx, ih]
      by_cases h : a ≤ x ∧ x < a + (bs.length + 1)
      · rw [if_pos h, if_pos (by omega), show x - a = (x - (a + 1)) + 1 by omega, List.getElem?_cons_succ]
      · rw [if_neg h, if_neg (by omega)]

/-- A frame written into an empty buffer has a cell at exactly its own addresses. -/
theorem Memory.writeBytes_addresses (bs : List Byte) :
    ∀ a, (Memory.writeBytes a bs []).map Prod.fst = List.range' a bs.length := by
  induction bs with
  | nil => intro a; rfl
  | cons b bs ih =>
    intro a
    have h : Memory.write a b (Memory.writeBytes (a + 1) bs []) =
        (a, b) :: Memory.writeBytes (a + 1) bs [] := by
      have ha := ih (a + 1)
      cases hm : Memory.writeBytes (a + 1) bs [] with
      | nil => rfl
      | cons c m =>
        obtain ⟨a', b'⟩ := c
        have hlt : a < a' := by
          rw [hm] at ha
          cases bs with
          | nil => simp at ha
          | cons _ bs' =>
            simp only [List.map_cons, List.length_cons, List.range'_succ, List.cons.injEq] at ha
            omega
        simp [Memory.write, hlt]
    simp only [Memory.writeBytes, h, List.map_cons, ih, List.length_cons, List.range'_succ]

/-! ## The held frame -/

/-- A memory that lists exactly the addresses `a, a + 1, ...` reads a byte at each of them and at no other. -/
theorem Memory.read_isSome_of_addresses (m : Memory) :
    ∀ a n, m.map Prod.fst = List.range' a n → ∀ x, (m.read x).isSome = true ↔ a ≤ x ∧ x < a + n := by
  induction m with
  | nil =>
    intro a n h x
    have : n = 0 := by simpa using congrArg List.length h.symm
    subst this
    simp only [Memory.read, Option.isSome_none, Bool.false_eq_true, false_iff]
    omega
  | cons c m ih =>
    obtain ⟨a', b'⟩ := c
    intro a n h x
    cases n with
    | zero => simp at h
    | succ n =>
      simp only [List.map_cons, List.range'_succ, List.cons.injEq] at h
      obtain ⟨rfl, h⟩ := h
      by_cases hx : a' = x
      · subst hx; simp [Memory.read]
      · simp only [Memory.read, hx, if_false]
        rw [ih _ _ h]; omega

/-- Where the frame is held, a byte reads exactly below `FLEN`. -/
theorem State.FrameHeld.readByte_isSome {s : State} (h : s.FrameHeld) (a : Nat) :
    (s.readByte a).isSome = true ↔ a < s.flen := by
  unfold State.FrameHeld at h
  rw [List.range_eq_range'] at h
  have := Memory.read_isSome_of_addresses s.mem 0 _ h a
  unfold State.readByte
  split
  · rw [this]; omega
  · simp_all

/-- Where the frame is held, the byte below `FLEN` is `byteAt`. -/
theorem State.FrameHeld.readByte_eq {s : State} (h : s.FrameHeld) {a : Nat} (ha : a < s.flen) :
    s.readByte a = some (s.byteAt a) := by
  obtain ⟨b, hb⟩ := Option.isSome_iff_exists.1 ((h.readByte_isSome a).2 ha)
  simp [State.byteAt, hb]

/-- A held frame is a canonical memory. -/
theorem State.FrameHeld.mem_wf {s : State} (h : s.FrameHeld) : s.mem.wf = true := by
  rw [Memory.wf_iff]
  have hp : (s.mem.map Prod.fst).Pairwise (· < ·) := h ▸ List.pairwise_lt_range
  exact List.pairwise_map.1 hp

/-- A held frame of at most `n` bytes lies within `n` bytes. -/
theorem State.FrameHeld.mem_within {s : State} (h : s.FrameHeld) {n : Nat} (hb : s.flen ≤ n) :
    s.mem.within n = true := by
  rw [Memory.within_iff]
  intro c hc
  have : c.1 ∈ List.range s.flen := h ▸ List.mem_map_of_mem hc
  exact Nat.lt_of_lt_of_le (List.mem_range.1 this) hb

/-- A loaded frame is held. -/
theorem State.loadFrame_frameHeld (s : State) (bytes : List Byte) : (s.loadFrame bytes).FrameHeld := by
  simp only [State.FrameHeld, State.loadFrame_mem, State.loadFrame_flen,
    Memory.writeBytes_addresses, List.range_eq_range']

/-- A loaded frame reads as its bytes, and holds no value beyond them. -/
theorem State.loadFrame_readByte (s : State) (bytes : List Byte) (a : Nat) :
    (s.loadFrame bytes).readByte a = bytes[a]? := by
  simp only [State.readByte, State.loadFrame_mem, State.loadFrame_flen, Memory.read_writeBytes,
    Nat.zero_le, true_and, Nat.zero_add, Nat.sub_zero]
  split
  · rfl
  · rw [List.getElem?_eq_none (by omega)]

/-! ## The width of the length registers (R20) -/

/-- `Config.lenWidth` is the formula of R20. -/
theorem lenWidth_eq_clog {n : Nat} (h : 1 ≤ n) : Config.lenWidth n = Nat.clog 2 (n + 1) := by
  have h1 := Nat.lt_log2_self (n := n)
  have h2 := Nat.log2_self_le (n := n) (by omega)
  apply le_antisymm
  · exact (Nat.lt_clog_iff_pow_lt (by decide)).2 (by omega)
  · exact (Nat.clog_le_iff_le_pow (by decide)).2 h1

/-- A count of at most `n` fits in `Config.lenWidth n` bits. -/
theorem lt_two_pow_lenWidth {n k : Nat} (h : k ≤ n) : k < 2 ^ Config.lenWidth n :=
  Nat.lt_of_le_of_lt h Nat.lt_log2_self

end Sys2Proof.Machine
end

