-- ==== Sys2Proof/Laws/Ops.lean ====
section
/-! SUPPORT. What each shared operation can do, once: the bit fields, the ends of a transition, the reader's
three operations, the cuts of the header words and the steps of `DECODE`. -/

namespace Sys2Proof.Machine

/-! ## Words and fields as numbers -/

/-- Concatenation as a number: `{x, y}` of R10. -/
theorem append_toNat {a b : Nat} (x : BitVec a) (y : BitVec b) :
    (x ++ y).toNat = x.toNat * 2 ^ b + y.toNat := by
  rw [BitVec.toNat_append, ← Nat.shiftLeft_add_eq_or_of_lt y.isLt, Nat.shiftLeft_eq]

/-- `BE32` by the formula of R10. -/
theorem be32_toNat (b0 b1 b2 b3 : Byte) : (be32 b0 b1 b2 b3).toNat =
    b0.toNat * 2 ^ 24 + b1.toNat * 2 ^ 16 + b2.toNat * 2 ^ 8 + b3.toNat := by
  simp only [be32]
  erw [append_toNat]
  erw [append_toNat, append_toNat]
  omega

theorem packHw1_toNat (ver ihl : BitVec 4) (ds : BitVec 6) (ecn : BitVec 2) (tlRaw : BitVec 16) :
    (packHw1 ver ihl ds ecn tlRaw).toNat = ver.toNat * 2 ^ 28 + ihl.toNat * 2 ^ 24 + ds.toNat * 2 ^ 18
      + ecn.toNat * 2 ^ 16 + tlRaw.toNat := by
  simp only [packHw1]
  erw [append_toNat]
  erw [append_toNat, append_toNat, append_toNat]
  omega

theorem packHw2_toNat (ident : BitVec 16) (flags : BitVec 2) (frag : BitVec 14) :
    (packHw2 ident flags frag).toNat = ident.toNat * 2 ^ 16 + flags.toNat * 2 ^ 14 + frag.toNat := by
  simp only [packHw2]
  erw [append_toNat]
  erw [append_toNat]
  omega

theorem packHw3_toNat (ttl proto : BitVec 8) (csum : BitVec 16) :
    (packHw3 ttl proto csum).toNat = ttl.toNat * 2 ^ 24 + proto.toNat * 2 ^ 16 + csum.toNat := by
  simp only [packHw3]
  erw [append_toNat]
  erw [append_toNat]
  omega

theorem extract_toNat {n : Nat} (x : BitVec n) (lo len : Nat) :
    (x.extractLsb' lo len).toNat = x.toNat / 2 ^ lo % 2 ^ len := by
  rw [BitVec.extractLsb'_toNat, Nat.shiftRight_eq_div_pow]

/-- `swap16` by the formula of R120. -/
theorem swap16_toNat (v : BitVec 16) : (Machine.swap16 v).toNat = v.toNat % 256 * 256 + v.toNat / 256 := by
  simp only [Machine.swap16]
  erw [append_toNat]
  simp only [extract_toNat]
  omega

theorem shr32_toNat (x : Word) (n : Nat) : (shr32 x n).toNat = x.toNat / 2 ^ n := by
  rw [shr32, BitVec.toNat_ushiftRight, Nat.shiftRight_eq_div_pow]

theorem shl32_toNat (x : Word) (n : Nat) : (shl32 x n).toNat = x.toNat * 2 ^ n % 2 ^ 32 := by
  rw [shl32, BitVec.toNat_shiftLeft, Nat.shiftLeft_eq]

/-! ## Bit fields -/

/-- The remainders of two takes are the remainder of one take of both widths. -/
theorem shl32_shl32 (x : Word) (a b : Nat) : shl32 (shl32 x a) b = shl32 x (a + b) :=
  (BitVec.shiftLeft_add x a b).symm

/-- The value of a take of `n` bits after `k` are gone, as a field of the whole word. -/
theorem take_eq_field (x : Word) (k n : Nat) (h : k + n ≤ 32) :
    (shr32 (shl32 x k) (32 - n)).setWidth n = x.extractLsb' (32 - k - n) n := by
  apply BitVec.eq_of_getLsbD_eq
  intro i hi
  simp only [shr32, shl32, BitVec.getLsbD_setWidth, BitVec.getLsbD_ushiftRight, BitVec.getLsbD_shiftLeft,
    BitVec.getLsbD_extractLsb', hi, decide_true, Bool.true_and]
  have h1 : 32 - n + i < 32 := by omega
  have h2 : ¬ 32 - n + i < k := by omega
  have h3 : 32 - n + i - k = 32 - k - n + i := by omega
  simp [h1, h2, h3]

/-- A taken value is the zero-extension of its field. -/
theorem take_eq_setWidth_field (x : Word) (k n : Nat) (h : k + n ≤ 32) :
    shr32 (shl32 x k) (32 - n) = (x.extractLsb' (32 - k - n) n).setWidth 32 := by
  apply BitVec.eq_of_getLsbD_eq
  intro i hi
  simp only [shr32, shl32, BitVec.getLsbD_setWidth, BitVec.getLsbD_ushiftRight, BitVec.getLsbD_shiftLeft,
    BitVec.getLsbD_extractLsb', hi, decide_true, Bool.true_and]
  by_cases hn : i < n
  · have h1 : 32 - n + i < 32 := by omega
    have h2 : ¬ 32 - n + i < k := by omega
    have h3 : 32 - n + i - k = 32 - k - n + i := by omega
    simp [h1, h2, h3, hn]
  · have : ¬ (32 - n + i < 32) := by omega
    simp [this, hn]

@[simp] theorem shl32_zero (x : Word) : shl32 x 0 = x := by simp [shl32]

/-- A shift by the whole width gives 0, never `x` (R10). -/
@[simp] theorem shl32_full (x : Word) : shl32 x 32 = 0 := by
  simp [shl32, BitVec.shiftLeft_eq_zero]

@[simp] theorem setWidth_16_32_16 (x : BitVec 16) : (x.setWidth 32).setWidth 16 = x := by
  rw [BitVec.setWidth_setWidth_of_le _ (by decide), BitVec.setWidth_eq]

/-! ## The ends of a transition -/

@[simp] theorem conclude_ok (s t : State) : conclude s (.ok t) = .next t := rfl
@[simp] theorem conclude_raise (s : State) (e : ErrCode) :
    conclude s (.error (.raise e)) = .next (s.faultEntry e) := rfl
@[simp] theorem conclude_noValue (s : State) (a : Nat) :
    conclude s (.error (.noValue a)) = .fault (.noValue a) := rfl
@[simp] theorem conclude_refuse (s : State) (r : Refusal) :
    conclude s (.error (.refuse r)) = .refused r := rfl

/-- A transition that answers a next state ran to its end, or raised an error and wrote the fault entry
only. -/
theorem conclude_next {s t : State} {k : Except Abort State} (h : conclude s k = .next t) :
    k = .ok t ∨ ∃ e, k = .error (.raise e) ∧ t = s.faultEntry e := by
  rcases k with (e | a | r) | u
  · exact .inr ⟨e, rfl, by simpa using h.symm⟩
  · simp at h
  · simp at h
  · exact .inl (by simpa using h)

theorem whenRunning_of_running {α : Type} {s : State} (h : s.halt = false) (k : Except Abort α) :
    whenRunning s k = k := by simp [whenRunning, h]

theorem whenRunning_of_halted {α : Type} {s : State} (h : s.halt = true) (k : Except Abort α) :
    whenRunning s k = .error (.refuse .halted) := by simp [whenRunning, h]

/-! ## The reader -/

/-- Four readable bytes are read in address order. -/
theorem State.memRead_four {s : State} {a : Nat} {b0 b1 b2 b3 : Byte} (h0 : s.readByte a = some b0)
    (h1 : s.readByte (a + 1) = some b1) (h2 : s.readByte (a + 2) = some b2)
    (h3 : s.readByte (a + 3) = some b3) : s.memRead a 4 = .ok [b0, b1, b2, b3] := by
  simp [State.memRead, h0, h1, h2, h3]

/-- A read of `n` bytes that succeeds gives `n` bytes, and one that does not meets a byte without a value. -/
theorem State.memRead_cases (s : State) : ∀ n a,
    (∃ bs, s.memRead a n = .ok bs ∧ bs.length = n) ∨
      ∃ x, a ≤ x ∧ x < a + n ∧ s.readByte x = none ∧ s.memRead a n = .error (.noValue x) := by
  intro n
  induction n with
  | zero => intro a; exact .inl ⟨[], rfl, rfl⟩
  | succ n ih =>
    intro a
    cases hb : s.readByte a with
    | none => exact .inr ⟨a, by omega, by omega, hb, by simp [State.memRead, hb]⟩
    | some b =>
      rcases ih (a + 1) with ⟨bs, h, hl⟩ | ⟨x, h1, h2, hx, h⟩
      · exact .inl ⟨b :: bs, by simp [State.memRead, hb, h], by simp [hl]⟩
      · exact .inr ⟨x, by omega, by omega, hx, by simp [State.memRead, hb, h]⟩

theorem nextWordOp_short {s : State} (h : s.flen - s.cur < 4) :
    nextWordOp s = .error (.raise .precondWord) := by
  simp only [nextWordOp, Config.wordBytes, h, if_true]

theorem nextWordOp_bytes {s : State} {b0 b1 b2 b3 : Byte} (h : s.cur + 4 ≤ s.flen)
    (h0 : s.readByte s.cur = some b0) (h1 : s.readByte (s.cur + 1) = some b1)
    (h2 : s.readByte (s.cur + 2) = some b2) (h3 : s.readByte (s.cur + 3) = some b3) :
    nextWordOp s = .ok (s.beginWord (be32 b0 b1 b2 b3)) := by
  have hn : ¬ s.flen - s.cur < 4 := by omega
  simp [nextWordOp, hn, State.memRead_four h0 h1 h2 h3, nextWord]

/-- Everything `NEXTWORD` can do once it runs. -/
theorem nextWordOp_cases (s : State) :
    (s.flen - s.cur < 4 ∧ nextWordOp s = .error (.raise .precondWord)) ∨
    (s.cur + 4 ≤ s.flen ∧ ∃ word, nextWordOp s = .ok (s.beginWord word)) ∨
    (s.cur + 4 ≤ s.flen ∧ ∃ x, s.cur ≤ x ∧ x < s.cur + 4 ∧
      s.readByte x = none ∧ nextWordOp s = .error (.noValue x)) := by
  by_cases h : s.flen - s.cur < 4
  · exact .inl ⟨h, nextWordOp_short h⟩
  · have h' : s.cur + 4 ≤ s.flen := by omega
    rcases s.memRead_cases 4 s.cur with ⟨bs, hb, hl⟩ | ⟨x, h1, h2, hx, hb⟩
    · match bs, hl with
      | [b0, b1, b2, b3], _ => exact .inr (.inl ⟨h', be32 b0 b1 b2 b3, by simp [nextWordOp, h, hb, nextWord]⟩)
    · exact .inr (.inr ⟨h', x, h1, h2, hx, by simp [nextWordOp, h, hb]⟩)

theorem takeBitsOp_ok {w : Nat} {s : State} (h : w ≤ s.rem.toNat) : takeBitsOp w s = .ok (s.takeTop w) := by
  simp [takeBitsOp, Nat.not_lt.2 h]

theorem takeBitsOp_over {w : Nat} {s : State} (h : s.rem.toNat < w) :
    takeBitsOp w s = .error (.raise .precondTake) := by
  simp [takeBitsOp, h]

theorem takeField_ok {w : Nat} {put : Word → Record → Record} {s : State} (h : w ≤ s.rem.toNat) :
    takeField w put s = .ok ((s.takeTop w).stage (put (s.takeTop w).v)) := by
  simp [takeField, takeBitsOp_ok h]

/-! ## The cuts of the header words -/

theorem cutHw1_beginWord (x : Word) (s : State) :
    cutHw1 (s.beginWord x) = .ok { s with
      w := 0, wWritten := true, v := (Machine.swap16 (x.extractLsb' 0 16)).setWidth 32, vWritten := true,
      cur := s.cur + 4, rem := 0,
      staged := { s.staged with
        ver := x.extractLsb' 28 4, ihl := x.extractLsb' 24 4, ds := x.extractLsb' 18 6,
        ecn := x.extractLsb' 16 2, tlen := Machine.swap16 (x.extractLsb' 0 16) } } := by
  have f0 := take_eq_field x 0 4 (by decide)
  have f1 := take_eq_field x 4 4 (by decide)
  have f2 := take_eq_field x 8 6 (by decide)
  have f3 := take_eq_field x 14 2 (by decide)
  have f4 := take_eq_field x 16 16 (by decide)
  simp only [shl32_zero, Nat.reduceSub] at f0 f1 f2 f3 f4
  simp only [cutHw1, takeField, takeBitsOp, State.beginWord, State.takeTop, State.stage, State.swapValue,
    takeBits, shl32_shl32, Nat.reduceAdd, Nat.reduceSub, BitVec.reduceSub,
    BitVec.reduceToNat, Nat.reduceLT, if_false, bind, Except.bind, setWidth_16_32_16, f0, f1, f2, f3, f4,
    shl32_full, Bool.true_or]
  rfl

theorem cutHw2_beginWord (x : Word) (s : State) :
    cutHw2 (s.beginWord x) = .ok { s with
      w := 0, wWritten := true, v := (x.extractLsb' 0 14).setWidth 32, vWritten := true,
      cur := s.cur + 4, rem := 0,
      staged := { s.staged with
        ident := x.extractLsb' 16 16, flags := x.extractLsb' 14 2, frag := x.extractLsb' 0 14 } } := by
  have f0 := take_eq_field x 0 16 (by decide)
  have f1 := take_eq_field x 16 2 (by decide)
  have f2 := take_eq_field x 18 14 (by decide)
  have g2 := take_eq_setWidth_field x 18 14 (by decide)
  simp only [shl32_zero, Nat.reduceSub] at f0 f1 f2 g2
  simp only [cutHw2, takeField, takeBitsOp, State.beginWord, State.takeTop, State.stage,
    takeBits, shl32_shl32, Nat.reduceAdd, Nat.reduceSub, BitVec.reduceSub,
    BitVec.reduceToNat, Nat.reduceLT, if_false, bind, Except.bind, f0, f1, f2, shl32_full, Bool.true_or]
  rw [g2]; rfl

theorem cutHw3_beginWord (x : Word) (s : State) :
    cutHw3 (s.beginWord x) = .ok { s with
      w := 0, wWritten := true, v := (x.extractLsb' 0 16).setWidth 32, vWritten := true,
      cur := s.cur + 4, rem := 0,
      staged := { s.staged with
        ttl := x.extractLsb' 24 8, proto := x.extractLsb' 16 8, csum := x.extractLsb' 0 16 } } := by
  have f0 := take_eq_field x 0 8 (by decide)
  have f1 := take_eq_field x 8 8 (by decide)
  have f2 := take_eq_field x 16 16 (by decide)
  have g2 := take_eq_setWidth_field x 16 16 (by decide)
  simp only [shl32_zero, Nat.reduceSub] at f0 f1 f2 g2
  simp only [cutHw3, takeField, takeBitsOp, State.beginWord, State.takeTop, State.stage,
    takeBits, shl32_shl32, Nat.reduceAdd, Nat.reduceSub, BitVec.reduceSub,
    BitVec.reduceToNat, Nat.reduceLT, if_false, bind, Except.bind, f0, f1, f2, shl32_full, Bool.true_or]
  rw [g2]; rfl

theorem cutHw4_beginWord (x : Word) (s : State) :
    cutHw4 (s.beginWord x) = .ok { s with
      w := x, wWritten := true, cur := s.cur + 4, rem := 32,
      staged := { s.staged with src := Addr4.ofWord x } } := rfl

theorem cutHw5_beginWord (x : Word) (s : State) :
    cutHw5 (s.beginWord x) = .ok { s with
      w := x, wWritten := true, cur := s.cur + 4, rem := 32,
      staged := { s.staged with dst := Addr4.ofWord x } } := rfl

theorem headerWordOp_short {word : Word} {cut : State → Except Abort State} {s : State}
    (h : s.flen - s.cur < 4) : headerWordOp word cut s = .error (.raise .precondWord) := by
  simp only [headerWordOp, Config.wordBytes, h, if_true]

theorem headerWordOp_ok {word : Word} {cut : State → Except Abort State} {s : State}
    (h : s.cur + 4 ≤ s.flen) : headerWordOp word cut s = cut (s.beginWord word) := by
  have hn : ¬ s.flen - s.cur < 4 := by omega
  simp only [headerWordOp, Config.wordBytes, hn, if_false]

end Sys2Proof.Machine
end

