-- ==== Sys2Proof/Laws/Exec.lean ====
section
/-! SUPPORT. What `DECODE`'s steps, a header word and any execution of an instruction can do, once. -/

namespace Sys2Proof.Machine

/-- A completed `NEXTWORD` began a word. -/
theorem nextWordOp_ok {s t : State} (h : nextWordOp s = .ok t) : ∃ x, t = s.beginWord x := by
  rcases nextWordOp_cases s with ⟨_, e⟩ | ⟨_, x, e⟩ | ⟨_, x, _, _, _, e⟩ <;> rw [e] at h
  · cases h
  · exact ⟨x, (Except.ok.inj h).symm⟩
  · cases h

/-- Everything the steps of `DECODE` can do on a frame of at least 20 bytes: they complete, or meet a byte of
the header that holds no value. -/
theorem decodeSteps_cases {s : State} (hl : 20 ≤ s.flen) :
    (∃ x v r, decodeSteps s = .ok { s with
      w := x, wWritten := true, v := v, vWritten := true, cur := 20, rem := 32, record := some r,
      staged := Record.blank }) ∨
    ∃ a, a < 20 ∧ s.readByte a = none ∧ decodeSteps s = .error (.noValue a) := by
  have st : ∀ (k : Nat) (t : State), k ≤ 16 → t.cur = k → t.flen = s.flen → t.mem = s.mem →
      (∃ x, nextWordOp t = .ok (t.beginWord x)) ∨
        ∃ a, k ≤ a ∧ a < k + 4 ∧ s.readByte a = none ∧ nextWordOp t = .error (.noValue a) := by
    intro k t hk hc hfl hm
    have e := hc
    rcases nextWordOp_cases t with ⟨h1, _⟩ | ⟨_, x, h⟩ | ⟨_, x, h1, h2, h3, h⟩
    · rw [hfl] at h1; omega
    · exact .inl ⟨x, h⟩
    · rw [e] at h1 h2
      exact .inr ⟨x, h1, h2, by rw [← State.readByte_congr hm hfl]; exact h3, h⟩
  have er : ∀ (k : Nat) (t : State) (e : Abort), nextWordOp t = .error e → k ≤ 16 →
      t.cur = k → t.flen = s.flen → t.mem = s.mem →
      ∃ a, a < 20 ∧ s.readByte a = none ∧ e = .noValue a := by
    intro k t e he h1 h2 h3 h4
    rcases st k t h1 h2 h3 h4 with ⟨x, e'⟩ | ⟨a, _, h5, h6, e'⟩
    · rw [e'] at he; cases he
    · rw [e'] at he; cases he; exact ⟨a, by omega, h6, rfl⟩
  have ok : ∀ (t u : State), nextWordOp t = .ok u → ∃ x, u = t.beginWord x := fun t u h => nextWordOp_ok h
  simp only [decodeSteps, bind, Except.bind]
  split
  · rename_i e he
    obtain ⟨a, h1, h2, rfl⟩ := er 0 _ _ he (by decide) rfl rfl rfl
    exact .inr ⟨a, h1, h2, rfl⟩
  rename_i u hu
  obtain ⟨x, rfl⟩ := ok _ _ hu
  clear hu
  simp only [cutHw1_beginWord]
  split
  · rename_i e he
    obtain ⟨a, h1, h2, rfl⟩ := er 4 _ _ he (by decide) rfl rfl rfl
    exact .inr ⟨a, h1, h2, rfl⟩
  rename_i u hu
  obtain ⟨x, rfl⟩ := ok _ _ hu
  clear hu
  simp only [cutHw2_beginWord]
  split
  · rename_i e he
    obtain ⟨a, h1, h2, rfl⟩ := er 8 _ _ he (by decide) rfl rfl rfl
    exact .inr ⟨a, h1, h2, rfl⟩
  rename_i u hu
  obtain ⟨x, rfl⟩ := ok _ _ hu
  clear hu
  simp only [cutHw3_beginWord]
  split
  · rename_i e he
    obtain ⟨a, h1, h2, rfl⟩ := er 12 _ _ he (by decide) rfl rfl rfl
    exact .inr ⟨a, h1, h2, rfl⟩
  rename_i u hu
  obtain ⟨x, rfl⟩ := ok _ _ hu
  clear hu
  simp only [cutHw4_beginWord]
  split
  · rename_i e he
    obtain ⟨a, h1, h2, rfl⟩ := er 16 _ _ he (by decide) rfl rfl rfl
    exact .inr ⟨a, h1, h2, rfl⟩
  rename_i u hu
  obtain ⟨x, rfl⟩ := ok _ _ hu
  clear hu
  simp only [cutHw5_beginWord]
  exact .inl ⟨_, _, _, rfl⟩

/-- Everything a header word can do while running: it finds no word left, or it begins its word and cuts
it, writing the reader and the staging copies only. -/
theorem headerWordOp_next {word : Word} {cut : State → Except Abort State} {s t : State}
    (hc : ∀ (x : Word) (s : State), ∃ w v vw rem staged, cut (s.beginWord x) = .ok { s with
      w := w, wWritten := true, v := v, vWritten := vw, cur := s.cur + 4, rem := rem, staged := staged })
    (he : conclude s (headerWordOp word cut s) = .next t) :
    t = s.faultEntry .precondWord ∨
    (s.cur + 4 ≤ s.flen ∧ ∃ w v vw rem staged, t = { s with
      w := w, wWritten := true, v := v, vWritten := vw, cur := s.cur + 4, rem := rem, staged := staged }) := by
  by_cases hs : s.flen - s.cur < 4
  · rw [headerWordOp_short hs] at he; cases he; exact .inl rfl
  · have hs' : s.cur + 4 ≤ s.flen := by omega
    rw [headerWordOp_ok hs'] at he
    obtain ⟨w, v, vw, rem, st, e⟩ := hc word s
    rw [e] at he; cases he
    exact .inr ⟨hs', _, _, _, _, _, rfl⟩

/-- While halted every instruction is refused (R191). -/
theorem exec_of_halted (i : Instr) {s : State} (hh : s.halt = true) : exec i s = .refused .halted := by
  cases i <;> simp [exec, execNextWord, execTakeBits, execSwap16, execDecode, execHw1, execHw2, execHw3,
    execHw4, execHw5, whenRunning_of_halted hh]

/-- Everything an execution that answers a next state can do: it was not halted, and it raised an error of
its own, or had its effect. A header word is an instruction whose format is not `CMD8`. -/
theorem exec_next_cases {i : Instr} {s t : State} (he : exec i s = .next t) : s.halt = false ∧
    ((∃ e, e ≠ .noError ∧ t = s.faultEntry e ∧ (i = .nextWord → e = .precondWord) ∧
        ((∃ w, i = .takeBits w) → e = .badRequest ∨ e = .precondTake) ∧ i ≠ .swap16 ∧
        (i = .decode → e = .shortBuffer)) ∨
      (i = .nextWord ∧ s.cur + 4 ≤ s.flen ∧ ∃ x, t = s.beginWord x) ∨
      (∃ w, i = .takeBits w ∧ w.toNat ≤ 32 ∧ w.toNat ≤ s.rem.toNat ∧ t = s.takeTop w.toNat) ∨
      (i = .swap16 ∧ t = s.swapValue) ∨
      (i = .decode ∧ 20 ≤ s.flen ∧ ∃ x v r, t = { s with
        w := x, wWritten := true, v := v, vWritten := true, cur := 20, rem := 32, record := some r,
        staged := Record.blank }) ∨
      (i.format ≠ .cmd8 ∧ s.cur + 4 ≤ s.flen ∧ ∃ w v vw rem staged, t = { s with
        w := w, wWritten := true, v := v, vWritten := vw, cur := s.cur + 4, rem := rem,
        staged := staged })) := by
  by_cases hh : s.halt = true
  · rw [exec_of_halted i hh] at he
    cases he
  replace hh : s.halt = false := by simpa using hh
  refine ⟨hh, ?_⟩
  cases i with
  | nextWord =>
    simp only [exec, execNextWord, whenRunning_of_running hh] at he
    rcases nextWordOp_cases s with ⟨_, e⟩ | ⟨hc, x, e⟩ | ⟨_, x, _, _, _, e⟩ <;> rw [e] at he
    · cases he; left; exact ⟨.precondWord, by simp, rfl, by simp⟩
    · cases he; right; left; exact ⟨rfl, hc, x, rfl⟩
    · cases he
  | takeBits w =>
    simp only [exec, execTakeBits, whenRunning_of_running hh, Config.takeMax] at he
    by_cases h1 : 32 < w.toNat
    · simp only [h1, if_true] at he; cases he; left; exact ⟨.badRequest, by simp, rfl, by simp⟩
    · simp only [h1, if_false] at he
      by_cases h2 : s.rem.toNat < w.toNat
      · rw [takeBitsOp_over h2] at he; cases he; left; exact ⟨.precondTake, by simp, rfl, by simp⟩
      · rw [takeBitsOp_ok (by omega)] at he; cases he; right; right; left; exact ⟨w, rfl, by omega, by omega, rfl⟩
  | swap16 =>
    simp only [exec, execSwap16, whenRunning_of_running hh] at he
    cases he; right; right; right; left; exact ⟨rfl, rfl⟩
  | decode =>
    simp only [exec, execDecode, whenRunning_of_running hh, Config.hdrBytes] at he
    by_cases h1 : s.flen < 20
    · simp only [h1, if_true] at he; cases he; left; exact ⟨.shortBuffer, by simp, rfl, by simp⟩
    · simp only [h1, if_false] at he
      rcases decodeSteps_cases (s := s) (by omega) with ⟨x, v, r, e⟩ | ⟨a, _, _, e⟩ <;> rw [e] at he
      · cases he; right; right; right; right; left; exact ⟨rfl, by omega, _, _, _, rfl⟩
      · cases he
  | hw1 a b c d e =>
    simp only [exec, execHw1, whenRunning_of_running hh] at he
    rcases headerWordOp_next (s := s) (t := t) (fun x s => ⟨_, _, _, _, _, cutHw1_beginWord x s⟩) he with rfl | h
    · left; exact ⟨.precondWord, by simp, rfl, by simp⟩
    · right; right; right; right; right; exact ⟨by simp [Instr.format], h⟩
  | hw2 a b c =>
    simp only [exec, execHw2, whenRunning_of_running hh] at he
    rcases headerWordOp_next (s := s) (t := t) (fun x s => ⟨_, _, _, _, _, cutHw2_beginWord x s⟩) he with rfl | h
    · left; exact ⟨.precondWord, by simp, rfl, by simp⟩
    · right; right; right; right; right; exact ⟨by simp [Instr.format], h⟩
  | hw3 a b c =>
    simp only [exec, execHw3, whenRunning_of_running hh] at he
    rcases headerWordOp_next (s := s) (t := t) (fun x s => ⟨_, _, _, _, _, cutHw3_beginWord x s⟩) he with rfl | h
    · left; exact ⟨.precondWord, by simp, rfl, by simp⟩
    · right; right; right; right; right; exact ⟨by simp [Instr.format], h⟩
  | hw4 a =>
    simp only [exec, execHw4, whenRunning_of_running hh] at he
    rcases headerWordOp_next (s := s) (t := t) (fun x s => ⟨_, _, s.vWritten, _, _, cutHw4_beginWord x s⟩) he with rfl | h
    · left; exact ⟨.precondWord, by simp, rfl, by simp⟩
    · right; right; right; right; right; exact ⟨by simp [Instr.format], h⟩
  | hw5 a =>
    simp only [exec, execHw5, whenRunning_of_running hh] at he
    rcases headerWordOp_next (s := s) (t := t) (fun x s => ⟨_, _, s.vWritten, _, _, cutHw5_beginWord x s⟩) he with rfl | h
    · left; exact ⟨.precondWord, by simp, rfl, by simp⟩
    · right; right; right; right; right; exact ⟨by simp [Instr.format], h⟩

end Sys2Proof.Machine
end

