-- ==== Sys2Proof/Laws/PerInstr.lean ====
section
/-! SUPPORT. The family of statements made per instruction: an encoding has exactly the length of its
format (R70, R80). -/

namespace Sys2Proof.Laws.EncodeLength

/-- The bytes of an instruction are as many as its format says. -/
def Statement (i : Instr) : Prop := (encode i).length = i.format.bytes

theorem nextWord : Statement .nextWord := rfl
theorem takeBits (w : BitVec 6) : Statement (.takeBits w) := rfl
theorem swap16 : Statement .swap16 := rfl
theorem decode : Statement .decode := rfl
theorem hw1 (ver ihl : BitVec 4) (ds : BitVec 6) (ecn : BitVec 2) (tlRaw : BitVec 16) :
    Statement (.hw1 ver ihl ds ecn tlRaw) := rfl
theorem hw2 (ident : BitVec 16) (flags : BitVec 2) (frag : BitVec 14) :
    Statement (.hw2 ident flags frag) := rfl
theorem hw3 (ttl proto : BitVec 8) (csum : BitVec 16) : Statement (.hw3 ttl proto csum) := rfl
theorem hw4 (src : BitVec 32) : Statement (.hw4 src) := rfl
theorem hw5 (dst : BitVec 32) : Statement (.hw5 dst) := rfl

end Sys2Proof.Laws.EncodeLength
end

