-- ==== Sys2Proof/Laws/Step.lean ====
section
/-! SUPPORT. What a step can do, once. -/

namespace Sys2Proof.Machine

/-- A word decoded as a command is one of the four commands. -/
theorem decode_cmd8_cases {c : Byte} {i : Instr} (h : decode .cmd8 [c] = .ok i) :
    i = .nextWord ∨ (∃ w, i = .takeBits w) ∨ i = .swap16 ∨ i = .decode := by
  simp only [decode, decodeCommand] at h
  split at h <;> split at h <;> simp_all
  subst h; simp

theorem decode_cmd8_format {c : Byte} {i : Instr} (h : decode .cmd8 [c] = .ok i) : i.format = .cmd8 := by
  rcases decode_cmd8_cases h with rfl | ⟨w, rfl⟩ | rfl | rfl <;> rfl

/-- A `READ` raises no error. -/
theorem readReg_no_raise (r : Reg) (s : State) (e : ErrCode) : readReg r s ≠ .error (.raise e) := by
  cases r <;> simp only [readReg, readRunning, readWritten, readRecord, whenRunning] <;> repeat' split
  all_goals simp

/-- A `READ PAY[i]` raises no error. -/
theorem readPayload_no_raise (i : Nat) (s : State) (e : ErrCode) : readPayload i s ≠ .error (.raise e) := by
  simp only [readPayload, whenRunning]
  repeat' split
  all_goals simp

theorem map_reply_ok {k : Except Abort Nat} {f : Nat → State} {t : State} (h : k.map f = .ok t) :
    ∃ x, k = .ok x ∧ t = f x := by
  cases k <;> simp_all [Except.map]

theorem map_reply_error {k : Except Abort Nat} {f : Nat → State} {e : Abort} (h : k.map f = .error e) :
    k = .error e := by
  cases k <;> simp_all [Except.map]

/-- Everything a step that answers a next state can do. -/
theorem step_next_cases {s t : State} (he : step s = .next t) :
    (s.port = [] ∧ t = s) ∨ ∃ tr rest, s.port = tr :: rest ∧
      ((tr = .reset ∧ t = (s.accept rest).resetBlock) ∨
        (s.halt = false ∧ ∃ e, e ≠ .noError ∧ e ∈ tr.canRaise ∧ t = (s.accept rest).faultEntry e) ∨
        (s.halt = false ∧ ∃ bytes, tr = .load bytes ∧ bytes.length ≤ s.bufMax ∧
          t = (s.accept rest).loadFrame bytes) ∨
        (s.halt = false ∧ ∃ c i, tr = .cmd c ∧ decode .cmd8 [c] = .ok i ∧
          exec i (s.accept rest) = .next t ∧
          ((i = .nextWord ∧ s.cur + 4 ≤ s.flen ∧ ∃ x, t = (s.accept rest).beginWord x) ∨
            (∃ w, i = .takeBits w ∧ w.toNat ≤ 32 ∧ w.toNat ≤ s.rem.toNat ∧
              t = (s.accept rest).takeTop w.toNat) ∨
            (i = .swap16 ∧ t = (s.accept rest).swapValue) ∨
            (i = .decode ∧ 20 ≤ s.flen ∧ ∃ x v r, t = { s.accept rest with
              w := x, wWritten := true, v := v, vWritten := true, cur := 20, rem := 32,
              record := some r, staged := Record.blank }))) ∨
        (∃ r x, tr = .read r ∧ (s.halt = true → r.always = true) ∧
          readReg r (s.accept rest) = .ok x ∧ t = (s.accept rest).reply x) ∨
        (s.halt = false ∧ ∃ i x, tr = .readPay i ∧ readPayload i (s.accept rest) = .ok x ∧
          t = (s.accept rest).reply x)) := by
  rcases hp : s.port with _ | ⟨tr, rest⟩
  · simp only [step, hp] at he
    cases he
    exact .inl ⟨rfl, rfl⟩
  refine .inr ⟨tr, rest, rfl, ?_⟩
  simp only [step, hp] at he
  cases tr with
  | reset =>
    simp only [perform, doReset, Host.Outcome.next.injEq] at he
    exact .inl ⟨rfl, he.symm⟩
  | load bytes =>
    simp only [perform, doLoad] at he
    by_cases h : s.halt = true
    · rw [whenRunning_of_halted (s := s.accept rest) h] at he; cases he
    · replace h : s.halt = false := by simpa using h
      rw [whenRunning_of_running (s := s.accept rest) h, State.accept_bufMax] at he
      split at he
      · cases he
        exact .inr (.inl ⟨h, .badRequest, by simp, by simp [Transaction.canRaise], rfl⟩)
      · cases he
        exact .inr (.inr (.inl ⟨h, bytes, rfl, by omega, rfl⟩))
  | rxfail =>
    simp only [perform, doRxfail] at he
    by_cases h : s.halt = true
    · rw [whenRunning_of_halted (s := s.accept rest) h] at he; cases he
    · replace h : s.halt = false := by simpa using h
      rw [whenRunning_of_running (s := s.accept rest) h] at he
      cases he
      exact .inr (.inl ⟨h, .socketReadFailure, by simp, by simp [Transaction.canRaise], rfl⟩)
  | cmd c =>
    simp only [perform, doCmd, State.accept_halt] at he
    by_cases h : s.halt = true
    · simp only [h, if_true] at he; cases he
    · replace h : s.halt = false := by simpa using h
      simp only [h, Bool.false_eq_true, if_false] at he
      rcases hd : decode .cmd8 [c] with e | i <;> simp only [hd] at he
      · cases he
        exact .inr (.inl ⟨h, .badRequest, by simp, by simp [Transaction.canRaise, hd], rfl⟩)
      · rcases (exec_next_cases he).2 with ⟨e, h1, h2, h3, h4, h5, h6⟩ | ⟨hi, hc, hx⟩ | ⟨w, hi, hw⟩ |
          ⟨hi, ht⟩ | ⟨hi, hl, hx⟩ | ⟨hf, _⟩
        · refine .inr (.inl ⟨h, e, h1, ?_, h2⟩)
          rcases decode_cmd8_cases hd with rfl | ⟨w, rfl⟩ | rfl | rfl
          · simp [Transaction.canRaise, hd, h3 rfl]
          · simpa [Transaction.canRaise, hd] using h4 ⟨w, rfl⟩
          · exact absurd rfl h5
          · simp [Transaction.canRaise, hd, h6 rfl]
        · exact .inr (.inr (.inr (.inl ⟨h, c, i, rfl, hd, he, .inl ⟨hi, hc, hx⟩⟩)))
        · exact .inr (.inr (.inr (.inl ⟨h, c, i, rfl, hd, he, .inr (.inl ⟨w, hi, hw⟩)⟩)))
        · exact .inr (.inr (.inr (.inl ⟨h, c, i, rfl, hd, he, .inr (.inr (.inl ⟨hi, ht⟩))⟩)))
        · exact .inr (.inr (.inr (.inl ⟨h, c, i, rfl, hd, he, .inr (.inr (.inr ⟨hi, hl, hx⟩))⟩)))
        · exact absurd (decode_cmd8_format hd) hf
  | read r =>
    simp only [perform, doRead] at he
    rcases conclude_next he with h | ⟨e, h, _⟩
    · obtain ⟨x, h1, h2⟩ := map_reply_ok h
      refine .inr (.inr (.inr (.inr (.inl ⟨r, x, rfl, fun hh => ?_, h1, h2⟩))))
      by_contra hn
      cases r <;> simp [Reg.always] at hn <;>
        simp [readReg, readRunning, readWritten, readRecord, whenRunning, hh] at h1
    · exact absurd (map_reply_error h) (readReg_no_raise _ _ _)
  | readPay i =>
    simp only [perform, doReadPay] at he
    rcases conclude_next he with h | ⟨e, h, _⟩
    · obtain ⟨x, h1, h2⟩ := map_reply_ok h
      refine .inr (.inr (.inr (.inr (.inr ⟨?_, i, x, rfl, h1, h2⟩))))
      by_contra hn
      rw [readPayload, whenRunning_of_halted (s := s.accept rest) (by simpa using hn)] at h1
      cases h1
    · exact absurd (map_reply_error h) (readPayload_no_raise _ _ _)

end Sys2Proof.Machine
end

