-- ==== Sys2Proof/Tests/Slice0.lean ====
section
/-! SUPPORT. The model's own tests: the smoke test of WellFormed, decoding of words written out from the
spec's tables, one step per command and transaction with the expected values of 95_test_vectors.md, and for
each statement with hypotheses a state and operands that meet them. -/

namespace Sys2Proof.Tests

open Sys2Proof.Machine

/-! ## Small states -/

/-- The next state of an outcome, if it is one. -/
def nextOf : Host.Outcome State Fault Refusal → Option State
  | .next s => some s
  | _ => none

/-- The refusal of an outcome, if it is one. -/
def refusalOf : Host.Outcome State Fault Refusal → Option Refusal
  | .refused r => some r
  | _ => none

/-- A field of the next state, if there is one. -/
def see {α : Type} (field : State → α) (o : Host.Outcome State Fault Refusal) : Option α := (nextOf o).map field

/-- The block after `RESET` and `LOAD`. -/
def loaded (bytes : List Byte) : State := State.reset.loadFrame bytes

/-- `s` with the transactions the host is going to issue. -/
def issuing (trs : List Transaction) (s : State) : State := { s with port := trs }

/-- The frame of T25. -/
def t25 : List Byte :=
  [0x45, 0x00, 0x00, 0x16, 0x00, 0x00, 0x00, 0x00, 0x40, 0x06, 0x66, 0xE0, 0x0A, 0x00, 0x00, 0x01,
    0x0A, 0x00, 0x00, 0x02, 0x68, 0x69]

/-- The frame of T26. -/
def t26 : List Byte :=
  [0x45, 0x00, 0x0F, 0x27, 0x12, 0x34, 0x40, 0x00, 0x40, 0x11, 0xAB, 0xCD, 0xC0, 0xA8, 0x01, 0x0A,
    0xC0, 0xA8, 0x01, 0x14, 0xDE, 0xAD, 0xBE, 0xEF]

/-- The frame of T27. -/
def t27 : List Byte :=
  [0x6A, 0xB7, 0x12, 0x34, 0xC0, 0xDE, 0x9A, 0xBC, 0x01, 0xFE, 0x55, 0xAA, 0x01, 0x02, 0x03, 0x04,
    0xFA, 0xFB, 0xFC, 0xFD, 0x6F, 0x70, 0x74]

/-- The record of T27. -/
def r27 : Record where
  ver := 6
  ihl := 0xA
  ds := 0x2D
  ecn := 3
  tlen := 0x3412
  ident := 0xC0DE
  flags := 2
  frag := 0x1ABC
  ttl := 0x01
  proto := 0xFE
  csum := 0x55AA
  src := ⟨1, 2, 3, 4⟩
  dst := ⟨250, 251, 252, 253⟩
  plen := 3

/-- The block after `DECODE` of T27's frame, by T27. -/
def decoded : State :=
  { loaded t27 with
    w := 0xFAFBFCFD, wWritten := true, v := 0x000055AA, vWritten := true, cur := 20, rem := 32,
    record := some r27 }

/-- A halted block. -/
def halted : State := (loaded t27).faultEntry .precondWord

/-! ## WellFormed: the one check, and ill-formed terms it refuses (R82, R83) -/

theorem test_wf_refuses_takeBits_33 : (Instr.takeBits 33).wf = false := by decide
theorem test_wf_refuses_takeBits_63 : (Instr.takeBits 63).wf = false := by decide
theorem test_wf_accepts_takeBits_32 : (Instr.takeBits 32).wf = true := by decide

/-! ## Decoding of words written out bit by bit (R71 to R74, R81; the words of T40 to T46 and T25 to T27) -/

theorem test_decode_nextWord : decode .cmd8 [0b00_000000] = .ok .nextWord := by decide
theorem test_decode_takeBits_0 : decode .cmd8 [0b01_000000] = .ok (.takeBits 0) := by decide
theorem test_decode_takeBits_14 : decode .cmd8 [0b01_001110] = .ok (.takeBits 14) := by decide
theorem test_decode_takeBits_32 : decode .cmd8 [0b01_100000] = .ok (.takeBits 32) := by decide
theorem test_decode_swap16 : decode .cmd8 [0b10_000000] = .ok .swap16 := by decide
theorem test_decode_decode : decode .cmd8 [0b11_000000] = .ok .decode := by decide
theorem test_decode_reserved_01 : decode .cmd8 [0b00_000001] = .error .reservedNextWord := by decide
theorem test_decode_reserved_61 : decode .cmd8 [0b01_100001] = .error .reservedTakeBits := by decide
theorem test_decode_reserved_81 : decode .cmd8 [0b10_000001] = .error .reservedSwap16 := by decide
theorem test_decode_reserved_ff : decode .cmd8 [0b11_111111] = .error .reservedDecode := by decide
theorem test_decode_hw1 : decode .hw1 [0b0110_1010, 0b101101_11, 0b00010010, 0b00110100] =
    .ok (.hw1 6 0xA 0x2D 3 0x1234) := by decide
theorem test_decode_hw2 : decode .hw2 [0b11000000, 0b11011110, 0b10_011010, 0b10111100] =
    .ok (.hw2 0xC0DE 2 0x1ABC) := by decide
theorem test_decode_hw3 : decode .hw3 [0b00000001, 0b11111110, 0b01010101, 0b10101010] =
    .ok (.hw3 0x01 0xFE 0x55AA) := by decide
theorem test_decode_hw4 : decode .hw4 [0b00000001, 0b00000010, 0b00000011, 0b00000100] =
    .ok (.hw4 0x01020304) := by decide
theorem test_decode_hw5 : decode .hw5 [0b11111010, 0b11111011, 0b11111100, 0b11111101] =
    .ok (.hw5 0xFAFBFCFD) := by decide
theorem test_decode_wrong_length : decode .cmd8 [0x00, 0x00] = .error .wrongLength := by decide
theorem test_decodeTableWord_command : decodeTableWord 8 0x4B = some (.takeBits 11) := by decide
theorem test_decodeTableWord_header : decodeTableWord 32 0x6AB71234 = some (.hw1 6 0xA 0x2D 3 0x1234) := by
  decide
theorem test_decodeTableWord_reserved : decodeTableWord 8 0x7F = none := by decide

/-! ## The pure functions (T1, T2, T7, T22) -/

theorem test_takeBits_0 : takeBits 0x12345678 0 = (0x00000000, 0x12345678) := by decide
theorem test_takeBits_32 : takeBits 0x12345678 32 = (0x12345678, 0x00000000) := by decide
theorem test_takeBits_31 : takeBits 0x80000001 31 = (0x40000000, 0x80000000) := by decide
theorem test_swap16 : swap16 0x8001 = 0x0180 := by decide

/-! ## One step of each instruction -/

/-- T31, first line. -/
theorem test_nextWord : see (fun s => (s.w, s.cur, s.rem)) (exec .nextWord (loaded t25)) =
    some (0x45000016, 4, 32) := by decide

/-- T33: three bytes left, `STATUS = 0x0E`, `CUR` unchanged. -/
theorem test_nextWord_short : see (fun s => (s.status, s.cur, s.rem))
    (exec .nextWord { loaded [1, 2, 3, 4, 5, 6, 7] with cur := 4, rem := 32 }) = some (0x0E, 4, 32) := by decide

/-- T32: `TAKEBITS 31`. -/
theorem test_takeBits : see (fun s => (s.v, s.w, s.rem))
    (exec (.takeBits 31) { loaded t25 with w := 0x05060708, wWritten := true, rem := 32 }) =
    some (0x02830384, 0x00000000, 1) := by decide

/-- T39: 16 bits asked, 12 left, `STATUS = 0x12`, nothing else changes. -/
theorem test_takeBits_over : see (fun s => (s.status, s.v, s.w, s.rem))
    (exec (.takeBits 16) { loaded t25 with w := 0xF1200000, wWritten := true, v := 0x000ABCDE, rem := 12 }) =
    some (0x12, 0x000ABCDE, 0xF1200000, 12) := by decide

/-- T38. -/
theorem test_swap16_step : see (fun s => s.v) (exec .swap16 { loaded t25 with v := 0x00145678 }) =
    some 0x00007856 := by decide

/-- T27. -/
theorem test_decode_step : see (fun s => (s.record, s.w, s.v, s.cur, s.rem)) (exec .decode (loaded t27)) =
    some (some r27, 0xFAFBFCFD, 0x000055AA, 20, 32) := by decide

/-- T28: 19 bytes, `STATUS = 0x06`, no extraction. -/
theorem test_decode_short : see (fun s => (s.status, s.cur, s.rem, s.wWritten, s.vWritten))
    (exec .decode (loaded (t25.take 19))) = some (0x06, 0, 0, false, false) := by decide

/-- T27, word 1. -/
theorem test_hw1_step : see (fun s => (s.v, s.w, s.cur, s.staged.ds, s.staged.tlen))
    (exec (.hw1 6 0xA 0x2D 3 0x1234) (loaded t27)) = some (0x3412, 0, 4, 0x2D, 0x3412) := by decide

/-- P2, last line. -/
theorem test_hw2_step : see (fun s => (s.v, s.w, s.cur, s.rem, s.staged.flags))
    (exec (.hw2 0xC0DE 2 0x1ABC) { loaded t27 with cur := 4 }) = some (0x1ABC, 0, 8, 0, 2) := by decide

/-- T27, word 3. -/
theorem test_hw3_step : see (fun s => (s.v, s.staged.ttl, s.staged.proto, s.staged.csum))
    (exec (.hw3 0x01 0xFE 0x55AA) { loaded t27 with cur := 8 }) = some (0x55AA, 0x01, 0xFE, 0x55AA) := by decide

/-- T27, word 4. -/
theorem test_hw4_step : see (fun s => (s.w, s.rem, s.staged.src))
    (exec (.hw4 0x01020304) { loaded t27 with cur := 12 }) = some (0x01020304, 32, ⟨1, 2, 3, 4⟩) := by decide

/-- T27, word 5. -/
theorem test_hw5_step : see (fun s => (s.w, s.cur, s.staged.dst))
    (exec (.hw5 0xFAFBFCFD) { loaded t27 with cur := 16 }) = some (0xFAFBFCFD, 20, ⟨250, 251, 252, 253⟩) := by
  decide

/-! ## One step of each transaction -/

/-- T45: `BadRequest` before the command's precondition. -/
theorem test_cmd_reserved : see (fun s => s.status) (step (issuing [.cmd 0x61] State.reset)) = some 0x16 := by
  decide

/-- T37: `TAKEBITS 0` straight after `RESET`. -/
theorem test_cmd_takeBits_0 : see (fun s => (s.vWritten, s.wWritten, s.rem, s.status))
    (step (issuing [.cmd 0x40] State.reset)) = some (true, false, 0, 0x00) := by decide

/-- T47. -/
theorem test_rxfail : see (fun s => (s.status, s.cur, s.flen)) (step (issuing [.rxfail] decoded)) =
    some (0x0A, 20, 23) := by decide

/-- T47: a second `RXFAIL` is refused. -/
theorem test_rxfail_halted : refusalOf (step (issuing [.rxfail] halted)) = some .halted := by decide

/-- T48: `LOAD` over a valid record; `W` keeps its value. -/
theorem test_load : see (fun s => (s.flen, s.valid, s.cur, s.rem, s.w))
    (step (issuing [.load [0xAA]] decoded)) = some (1, false, 0, 0, 0xFAFBFCFD) := by decide

/-- T26: `READ PAY[3]`. -/
theorem test_readPay : see (fun s => s.answer)
    (step (issuing [.readPay 3] { loaded t26 with record := some { r27 with plen := 4 } })) =
    some (some 0xEF) := by decide

/-- T26: `READ PAY[4]` is refused. -/
theorem test_readPay_beyond : refusalOf
    (step (issuing [.readPay 4] { loaded t26 with record := some { r27 with plen := 4 } })) =
    some .payloadIndex := by decide

/-- T27: `READ DST[3]` zero-extends one byte. -/
theorem test_read : see (fun s => s.answer) (step (issuing [.read (.dst 3)] decoded)) = some (some 0xFD) := by
  decide

/-- T32: `READ ERR` after `PrecondTake` answers 4 (R180), halted. -/
theorem test_read_err : see (fun s => s.answer)
    (step (issuing [.read .err] ((loaded t27).faultEntry .precondTake))) = some (some 4) := by decide

/-- R163: `READ W` before any write is refused. -/
theorem test_read_unwritten : refusalOf (step (issuing [.read .w] (loaded t27))) = some .unwritten := by decide

/-- P4: `RESET` out of a halt. -/
theorem test_reset : see (fun s => (s.status, s.flen, s.mem)) (step (issuing [.reset] halted)) =
    some (0x00, 0, []) := by decide

/-- `withFetchWord` makes the next step run a command: T35. -/
theorem test_withFetchWord_command : see (fun s => s.status) (step (State.reset.withFetchWord 8 0x00)) =
    some 0x0E := by decide

/-- `withFetchWord` makes the next step consume a header word. -/
theorem test_withFetchWord_header : see (fun s => s.record.map (fun r => (r.ver, r.ihl, r.ds, r.ecn, r.tlen)))
    (step (State.reset.withFetchWord 32 0x6AB71234)) = some (some (6, 0xA, 0x2D, 3, 0x3412)) := by decide

/-! ## Witnesses: states and operands that meet the hypotheses of the statements, at the boundary values

`short` has three bytes left and `exact4` four; `loaded (t25.take 19)` and `loaded (t25.take 20)` stand on the
two sides of `HDR_BYTES`. -/

/-- Three bytes left (T33). -/
def short : State := { loaded [1, 2, 3, 4, 5, 6, 7] with cur := 4, rem := 32 }

/-- Exactly four bytes left. -/
def exact4 : State := { loaded [1, 2, 3, 4, 5, 6, 7, 8] with cur := 4 }

/-- 12 bits left of a word (T39). -/
def twelve : State :=
  { loaded [0xAB, 0xCD, 0xEF, 0x12] with
    w := 0xF1200000, wWritten := true, v := 0x000ABCDE, vWritten := true, cur := 4, rem := 12 }

theorem witness_CommandWords : (0 : BitVec 6).toNat ≤ 32 ∧ (32 : BitVec 6).toNat ≤ 32 := by decide

theorem witness_ReservedWords_ranges :
    [0x01, 0x3F, 0x61, 0x7F, 0x81, 0xBF, 0xC1, 0xFF].all (fun c => (decode .cmd8 [c]).toOption == none) = true ∧
    [0x00, 0x40, 0x60, 0x80, 0xC0].all (fun c => (decode .cmd8 [c]).toOption != none) = true := by decide

theorem witness_ReservedWords_raise : (issuing [.cmd 0x61] twelve).halt = false ∧
    (issuing [.cmd 0x61] twelve).port = [.cmd 0x61] ∧ decode .cmd8 [0x61] = .error .reservedTakeBits := by
  decide

theorem witness_DecodeOfEncode : (Instr.takeBits 32).wf = true ∧ (Instr.hw2 0xC0DE 2 0x1ABC).wf = true := by
  decide

theorem witness_EncodeOfDecode : decode .cmd8 [0x60] = .ok (.takeBits 32) ∧
    decode .hw5 [0xFA, 0xFB, 0xFC, 0xFD] = .ok (.hw5 0xFAFBFCFD) := by decide

theorem witness_TakesChain : [4, 4, 6, 2, 16].sum = 32 ∧ [4, 4, 6, 2, 16][4]? = some 16 ∧
    (takeFields 0x45000016 [4, 4, 6, 2, 16]).1[4]? = some 0x16 ∧ [20].sum ≤ 32 ∧ 32 < [20].sum + 16 := by decide

theorem witness_NextWord_halted : halted.halt = true := by decide
theorem witness_NextWord_short : short.halt = false ∧ short.flen - short.cur < 4 := by decide
theorem witness_NextWord_complete : exact4.halt = false ∧ exact4.cur + 4 ≤ exact4.flen ∧
    exact4.readByte exact4.cur = some 5 ∧ exact4.readByte (exact4.cur + 1) = some 6 ∧
    exact4.readByte (exact4.cur + 2) = some 7 ∧ exact4.readByte (exact4.cur + 3) = some 8 := by
  decide
theorem witness_NextWord_held : exact4.FrameHeld := by decide

theorem witness_TakeBits_reserved : twelve.halt = false ∧ 32 < (33 : BitVec 6).toNat := by decide
theorem witness_TakeBits_over : twelve.halt = false ∧ (13 : BitVec 6).toNat ≤ 32 ∧
    twelve.rem.toNat < (13 : BitVec 6).toNat := by decide
theorem witness_TakeBits_complete : twelve.halt = false ∧ (12 : BitVec 6).toNat ≤ 32 ∧
    (12 : BitVec 6).toNat ≤ twelve.rem.toNat ∧ twelve.wWritten = true := by decide
theorem witness_TakeBits_zero : (loaded t25).halt = false ∧ (0 : BitVec 6).toNat ≤ (loaded t25).rem.toNat := by
  decide

theorem witness_Swap16 : twelve.halt = false ∧ halted.halt = true := by decide

theorem witness_TakesAfterNextWord : (([11, 21] : List (BitVec 6)).map BitVec.toNat).sum ≤ 32 ∧
    exact4.halt = false ∧ exact4.cur + 4 ≤ exact4.flen ∧
    ([11, 21] : List (BitVec 6))[1]? = some 21 := by decide

/-- With `witness_NextWord_complete` the hypotheses of `TakesAfterNextWordYieldTheFields`; and the trace it
speaks of is there. -/
theorem witness_TakesAfterNextWord_trace : ((execTrace [.nextWord, .takeBits 11, .takeBits 21] exact4).map
    (fun ts => ts.map (fun t => (t.v.toNat, t.rem.toNat)))).map (List.drop 1) =
    some [(0x05060708 / 2 ^ 21, 21), (0x05060708 % 2 ^ 21, 0)] := by decide

theorem witness_Decode_short : (loaded (t25.take 19)).halt = false ∧ (loaded (t25.take 19)).flen < 20 := by
  decide
theorem witness_Decode_complete : (loaded (t25.take 20)).halt = false ∧
    20 ≤ (loaded (t25.take 20)).flen ∧
    ∀ a, a < 20 → (loaded (t25.take 20)).readByte a = some (t25.getD a 0) := by decide
theorem witness_Decode_held : (loaded (t25.take 20)).FrameHeld ∧ (loaded t27).FrameHeld := by decide

/-- Two states with the same header and length that differ in the reader, the payload and the record. -/
theorem witness_DecodeDependsOnHeader :
    let s := loaded t27
    let t := { loaded (t27.take 20 ++ [0, 0, 0]) with
      w := 0xFFFFFFFF, wWritten := true, rem := 7, record := some { r27 with ver := 9 } }
    s.FrameHeld ∧ t.FrameHeld ∧ s.halt = false ∧ t.halt = false ∧ s.flen = t.flen ∧ 20 ≤ s.flen ∧
      (∀ a, a < 20 → s.readByte a = t.readByte a) ∧ s.mem ≠ t.mem ∧ s.record ≠ t.record := by decide

theorem witness_RecordRebuilds : (loaded t27).halt = false ∧
    (∀ a, a < 20 → (loaded t27).readByte a = some (t27.getD a 0)) ∧
    see (fun s => s.record) (exec .decode (loaded t27)) = some (some r27) := by decide

theorem witness_HeaderWords_complete : exact4.halt = false ∧ exact4.cur + 4 ≤ exact4.flen := by decide
theorem witness_HeaderWords_short : short.halt = false ∧ short.flen - short.cur < 4 := by decide

theorem witness_CommandsLeaveTheFrame : (nextOf (exec .nextWord exact4)).isSome = true ∧
    (nextOf (exec (.takeBits 12) twelve)).isSome = true ∧ (nextOf (exec .swap16 twelve)).isSome = true ∧
    (nextOf (exec .decode (loaded t27))).isSome = true ∧ (nextOf (exec (.hw4 7) exact4)).isSome = true ∧
    see (fun s => s.halt) (exec .nextWord short) = some true := by decide

theorem witness_StepRunsTheDecodedCommand : (issuing [.cmd 0x5F] twelve).port = [.cmd 0x5F] ∧
    (issuing [.cmd 0x5F] twelve).halt = false ∧ decode .cmd8 [0x5F] = .ok (.takeBits 31) := by decide
theorem witness_Step_halted : (issuing [.cmd 0x5F] halted).port = [.cmd 0x5F] ∧
    (issuing [.cmd 0x5F] halted).halt = true := by decide

theorem witness_Load_full : (issuing [.load (List.replicate 1024 0)] (loaded t25)).halt = false ∧
    (List.replicate 1024 (0 : Byte)).length ≤ (loaded t25).bufMax :=
  ⟨by decide, by rw [List.length_replicate]; decide⟩
theorem witness_Load_over : (issuing [.load (List.replicate 1025 0)] (loaded t25)).halt = false ∧
    (loaded t25).bufMax < (List.replicate 1025 (0 : Byte)).length :=
  ⟨by decide, by rw [List.length_replicate]; decide⟩

/-- The least instance, `BUF_MAX = 20`: a frame of 20 bytes is taken, one of 21 is not (R7, R161). -/
theorem test_load_least_instance :
    see (fun s => (s.status, s.flen, s.bufMax)) (step (issuing [.load (t25.take 20)] (State.resetOf 20))) =
      some (0x00, 20, 20) ∧
    see (fun s => (s.status, s.flen, s.bufMax)) (step (issuing [.load (t25.take 21)] (State.resetOf 20))) =
      some (0x16, 0, 20) := by decide

/-- `RESET` keeps `BUF_MAX`. -/
theorem test_reset_keeps_capacity :
    see (fun s => s.bufMax) (step (issuing [.reset] (State.resetOf 20))) = some 20 := by decide

/-- The widths of R20 for the default and around a power of two. -/
theorem test_lenWidth : (Config.lenWidth 1024, Config.lenWidth 1023, Config.lenWidth 20) = (11, 10, 5) := by decide
theorem witness_Load_halted : (issuing [.load []] halted).port = [.load []] ∧
    (issuing [.load []] halted).halt = true := by decide

theorem witness_Rxfail : (issuing [.rxfail] decoded).port = [.rxfail] ∧ (issuing [.rxfail] decoded).halt = false := by
  decide

theorem witness_Read_answers : decoded.halt = false ∧ decoded.record = some r27 ∧ decoded.wWritten = true ∧
    decoded.vWritten = true ∧ (issuing [.read .plen] decoded).port = [.read .plen] := by decide
theorem witness_Read_refused : (loaded t27).halt = false ∧ (loaded t27).record = none ∧
    (loaded t27).wWritten = false ∧ (loaded t27).vWritten = false ∧ Reg.ver.ofRecord = true := by decide
theorem witness_Read_halted : halted.halt = true ∧ Reg.flen.always = false := by decide

theorem witness_ReadPay_last : decoded.record = some r27 ∧ 2 < r27.plen ∧
    decoded.readByte (20 + 2) = some 0x74 := by decide
theorem witness_ReadPay_beyond : decoded.record = some r27 ∧ r27.plen ≤ 3 := by decide

theorem witness_Reset : (issuing [.reset, .rxfail] halted).port = .reset :: [.rxfail] := by decide

theorem witness_StepTakesOne : State.reset.port = [] ∧
    (nextOf (step (issuing [.rxfail] State.reset))).isSome = true := by decide

theorem witness_ReceiveCycle_shortest : (issuing [.load (t25.take 20), .cmd 0xC0] (loaded t27)).halt = false ∧
    (t25.take 20).length ≤ (loaded t27).bufMax ∧ 20 ≤ (t25.take 20).length := by decide
theorem witness_ReceiveCycle_short : (issuing [.load (t25.take 19), .cmd 0xC0] (loaded t27)).halt = false ∧
    (t25.take 19).length < 20 := by decide

/-- P1: the receive cycle of T25's frame. -/
theorem witness_ReceiveCycle_runs : see (fun s => (s.status, s.flen, s.record.map (fun r => (r.tlen, r.plen))))
    (runSteps 2 (issuing [.load t25, .cmd 0xC0] State.reset)) = some (0x01, 22, some (0x1600, 2)) := by decide

theorem witness_Writers : (nextOf (step (issuing [.load [1]] decoded))).isSome = true ∧
    (nextOf (step (issuing [.cmd 0xC0] decoded))).isSome = true ∧
    (nextOf (step (issuing [.readPay 0] decoded))).isSome = true := by decide

theorem witness_FaultEntry : short.halt = false ∧
    see (fun s => s.halt) (step (issuing [.cmd 0x00] short)) = some true := by decide

theorem witness_Refusals : (issuing [.readPay 3] decoded).halt = false ∧
    refusalOf (step (issuing [.readPay 3] decoded)) = some .payloadIndex ∧
    refusalOf (step (issuing [.cmd 0x00] halted)) = some .halted := by decide

theorem witness_HaltStays : halted.halt = true ∧
    (nextOf (step (issuing [.read .status] halted))).isSome = true ∧
    (issuing [.read .status] halted).port.head? ≠ some .reset := by decide

/-- A decoded block meets the invariants: a valid record, bits remaining. -/
theorem witness_Inv_decoded (trs : List Transaction) : (issuing trs decoded).Inv where
  bufMaxLegal := by show 20 ≤ decoded.bufMax; decide
  frameHeld := by show (decoded).FrameHeld; decide
  flenBound := by show decoded.flen ≤ decoded.bufMax; decide
  curAligned := by show decoded.cur % 4 = 0; decide
  curInFrame := by show decoded.cur ≤ decoded.flen; decide
  remBound := by show decoded.rem.toNat ≤ 32; decide
  haltErr := by show decoded.halt = true ↔ decoded.err ≠ .noError; decide
  haltInvalid := by intro h; exact absurd h (by show decoded.halt ≠ true; decide)
  recordOfFrame := by
    intro r h
    cases h
    exact ⟨by show 20 ≤ decoded.flen; decide,
      by show r27 = Record.ofFrame decoded.byteAt decoded.flen; decide⟩
  consumedZero := by intro _ i hi; exact absurd hi (Nat.not_lt_zero i)
  wordWritten := by intro _; rfl
  stagedBlank := by rfl

/-- A halted block meets the invariants, whatever the error recorded. -/
theorem witness_Inv_halted (e : ErrCode) (h : e ≠ .noError) : ((issuing [] decoded).faultEntry e).Inv :=
  { witness_Inv_decoded [] with
    haltErr := ⟨fun _ => h, fun _ => rfl⟩
    haltInvalid := fun _ => rfl
    recordOfFrame := by intro r hr; cases hr }

/-- The least and the default instance are legal. -/
theorem witness_BufMax : 20 ≤ (State.resetOf 20).bufMax ∧ 20 ≤ State.reset.bufMax ∧ 1 ≤ State.reset.bufMax := by
  decide

theorem witness_Capacity : see (fun s => s.bufMax) (exec .swap16 twelve) = some 1024 ∧
    see (fun s => s.bufMax) (step (issuing [.load [1]] decoded)) = some 1024 := by decide

theorem witness_StepKeeps : (nextOf (step (issuing [.cmd 0x41] decoded))).isSome = true := by decide

theorem witness_ConsumedZero : see (fun s => s.halt) (exec .nextWord exact4) = some false ∧
    see (fun s => s.halt) (exec .decode (loaded t27)) = some false ∧
    (issuing [.cmd 0x41] decoded).port.head? ≠ some .reset ∧ decoded.rem = 32 := by decide

theorem witness_ValuesFit : see (fun s => s.halt) (exec (.takeBits 12) twelve) = some false ∧
    (nextOf (exec .swap16 twelve)).isSome = true := by decide

/-- Two states that differ in what the unwritten `W` and `V` hold. -/
theorem witness_UnwrittenRegisters (a b : Word) :
    (issuing [.cmd 0x00] (loaded t27)).SameButUnwritten
      { issuing [.cmd 0x00] (loaded t27) with w := a, v := b } := rfl

end Sys2Proof.Tests
end

section
/-! PROOFS. The family of `00_scope.md`: the reset state for every `BUF_MAX`, the parameter `BUF_MAX`, and the
width of the length registers. -/

namespace Sys2Proof.Machine

/-! ## The reset state -/

/-- At reset the frame is empty, no bits remain and no record is held, so only the constraint on `BUF_MAX`
(R7) asks anything. -/
theorem State.resetOf_inv {n : Nat} (hn : Config.bufMaxLeast ≤ n) : (State.resetOf n).Inv where
  bufMaxLegal := hn
  frameHeld := rfl
  flenBound := Nat.zero_le n
  curAligned := rfl
  curInFrame := Nat.le_refl 0
  remBound := Nat.zero_le 32
  haltErr := by simp
  haltInvalid := fun _ => rfl
  recordOfFrame := by simp
  consumedZero := by simp
  wordWritten := by simp
  stagedBlank := rfl

/-- Settles O41: reset meets the invariants (`State.resetOf_inv`), and an empty memory is in canonical form. -/
theorem resetMeetsTheInvariants : Obligations.ResetMeetsTheInvariants :=
  ⟨fun n hn => ⟨State.resetOf_inv hn, State.resetOf_bufMax n, rfl⟩, rfl⟩

/-! ## The parameter `BUF_MAX` -/

/-- None of the effects of `exec_next_cases` writes `BUF_MAX`: not the fault entry, nor a command, nor a
header word. -/
theorem exec_bufMax {i : Instr} {s t : State} (h : exec i s = .next t) : t.bufMax = s.bufMax := by
  obtain ⟨_, effect⟩ := exec_next_cases h
  rcases effect with ⟨e, _, rfl, _⟩ | ⟨_, _, x, rfl⟩ | ⟨w, _, _, _, rfl⟩ | ⟨_, rfl⟩ |
    ⟨_, _, x, v, r, rfl⟩ | ⟨_, _, w, v, vw, rem, staged, rfl⟩
  · exact State.faultEntry_bufMax e s
  · exact State.beginWord_bufMax x s
  · exact State.takeTop_bufMax w.toNat s
  · exact State.swapValue_bufMax s
  · rfl
  · rfl

/-- None of the effects of `step_next_cases` writes `BUF_MAX`: a command keeps it by `exec_bufMax`, and
`RESET` builds the reset state for the same `BUF_MAX`. -/
theorem step_bufMax {s t : State} (h : step s = .next t) : t.bufMax = s.bufMax := by
  rcases step_next_cases h with ⟨_, rfl⟩ | ⟨tr, rest, _, effect⟩
  · rfl
  rw [← State.accept_bufMax rest s]
  rcases effect with ⟨_, rfl⟩ | ⟨_, e, _, _, rfl⟩ | ⟨_, bytes, _, _, rfl⟩ | ⟨_, c, i, _, _, hexec, _⟩ |
    ⟨r, x, _, _, _, rfl⟩ | ⟨_, i, x, _, _, rfl⟩
  · exact State.resetBlock_bufMax _
  · exact State.faultEntry_bufMax e _
  · exact State.loadFrame_bufMax bytes _
  · exact exec_bufMax hexec
  · exact State.reply_bufMax x _
  · exact State.reply_bufMax x _

/-- Settles O48, by the cases of an execution (`exec_bufMax`) and of a step (`step_bufMax`). -/
theorem capacityIsNeverChanged : Obligations.CapacityIsNeverChanged :=
  ⟨fun _ _ _ => exec_bufMax, fun _ _ => step_bufMax⟩

/-! ## The width of the length registers -/

/-- A held record's `PLEN` is `FLEN - 20`. -/
theorem State.Inv.plen_eq {s : State} (hs : s.Inv) {r : Record} (hr : s.record = some r) :
    r.plen = s.flen - 20 := by
  obtain ⟨_, rfl⟩ := hs.recordOfFrame r hr
  rfl

/-- Under the invariants no count exceeds `BUF_MAX`: `CUR` and `PLEN` are at most `FLEN`. -/
theorem State.Inv.lengthsFit {s : State} (hs : s.Inv) : s.LengthsFit where
  cur := lt_two_pow_lenWidth (hs.curInFrame.trans hs.flenBound)
  flen := lt_two_pow_lenWidth hs.flenBound
  plen r hr := by
    have hplen : r.plen ≤ s.flen := hs.plen_eq hr ▸ Nat.sub_le s.flen 20
    exact lt_two_pow_lenWidth (hplen.trans hs.flenBound)

/-- The longest payload is that of the longest frame (R7). -/
theorem State.Inv.plen_le {s : State} (hs : s.Inv) {r : Record} (hr : s.record = some r) :
    r.plen ≤ s.bufMax - 20 :=
  hs.plen_eq hr ▸ Nat.sub_le_sub_right hs.flenBound 20

/-- Settles O49: R20's formula (`lenWidth_eq_clog`), and the bounds that the invariants put on the three
counts (`State.Inv.lengthsFit`, `State.Inv.plen_le`). -/
theorem lengthRegistersFitTheirWidth : Obligations.LengthRegistersFitTheirWidth :=
  ⟨fun _ => lenWidth_eq_clog, by decide, fun _ hs => ⟨hs.lengthsFit, fun _ => hs.plen_le⟩⟩

end Sys2Proof.Machine
end

section
/-! PROOFS. The family of `10_state.md`, facts that its statements share: the fields of a header word from its
bytes, the reader on a frame whose bytes are known, and what a completed command has written. -/

namespace Sys2Proof.Machine

/-! ## The fields of a header word from its bytes (R71 to R74) -/

theorem unpackHw1_be32 (b0 b1 b2 b3 : Byte) : unpackHw1 (be32 b0 b1 b2 b3) =
    .hw1 (b0.extractLsb' 4 4) (b0.extractLsb' 0 4) (b1.extractLsb' 2 6) (b1.extractLsb' 0 2) (b2 ++ b3) := by
  have h := be32_toNat b0 b1 b2 b3
  simp only [unpackHw1, Instr.hw1.injEq]
  refine ⟨?_, ?_, ?_, ?_, ?_⟩ <;> apply BitVec.eq_of_toNat_eq <;>
    simp only [extract_toNat, append_toNat, h] <;> omega

theorem unpackHw2_be32 (b0 b1 b2 b3 : Byte) : unpackHw2 (be32 b0 b1 b2 b3) =
    .hw2 (b0 ++ b1) (b2.extractLsb' 6 2) (b2.extractLsb' 0 6 ++ b3) := by
  have h := be32_toNat b0 b1 b2 b3
  simp only [unpackHw2, Instr.hw2.injEq]
  refine ⟨?_, ?_, ?_⟩ <;> apply BitVec.eq_of_toNat_eq <;>
    simp only [extract_toNat, append_toNat, h] <;> omega

theorem unpackHw3_be32 (b0 b1 b2 b3 : Byte) : unpackHw3 (be32 b0 b1 b2 b3) = .hw3 b0 b1 (b2 ++ b3) := by
  have h := be32_toNat b0 b1 b2 b3
  simp only [unpackHw3, Instr.hw3.injEq]
  refine ⟨?_, ?_, ?_⟩ <;> apply BitVec.eq_of_toNat_eq <;>
    simp only [extract_toNat, append_toNat, h] <;> omega

theorem Addr4.ofWord_be32 (b0 b1 b2 b3 : Byte) : Addr4.ofWord (be32 b0 b1 b2 b3) = ⟨b0, b1, b2, b3⟩ := by
  have h := be32_toNat b0 b1 b2 b3
  simp only [Addr4.ofWord, wireByte, Addr4.mk.injEq]
  refine ⟨?_, ?_, ?_, ?_⟩ <;> apply BitVec.eq_of_toNat_eq <;> simp [h] <;> omega

theorem swap16_append (b0 b1 : Byte) : Machine.swap16 (b0 ++ b1) = b1 ++ b0 := by
  apply BitVec.eq_of_toNat_eq
  simp only [swap16_toNat, append_toNat]
  omega

/-- The word that stands in the four bytes from `a`, the first in bits 31:24 (R52). -/
def wordAt (byte : Nat → Byte) (a : Nat) : Word :=
  be32 (byte a) (byte (a + 1)) (byte (a + 2)) (byte (a + 3))

/-- Byte `i` of the word at `a` is the frame's byte at `a + i`. -/
theorem wireByte_wordAt (byte : Nat → Byte) (a : Nat) (i : Fin 4) :
    wireByte (wordAt byte a) i = byte (a + i.val) := by
  obtain ⟨h0, h1, h2, h3⟩ := Addr4.mk.inj
    (Addr4.ofWord_be32 (byte a) (byte (a + 1)) (byte (a + 2)) (byte (a + 3)))
  fin_cases i
  exacts [h0, h1, h2, h3]

/-- The record of a frame as the slices of its five header words that R132's table names. -/
theorem Record.ofFrame_eq_words (byte : Nat → Byte) (flen : Nat) : Record.ofFrame byte flen =
    { ver := (wordAt byte 0).extractLsb' 28 4
      ihl := (wordAt byte 0).extractLsb' 24 4
      ds := (wordAt byte 0).extractLsb' 18 6
      ecn := (wordAt byte 0).extractLsb' 16 2
      tlen := Machine.swap16 ((wordAt byte 0).extractLsb' 0 16)
      ident := (wordAt byte 4).extractLsb' 16 16
      flags := (wordAt byte 4).extractLsb' 14 2
      frag := (wordAt byte 4).extractLsb' 0 14
      ttl := (wordAt byte 8).extractLsb' 24 8
      proto := (wordAt byte 8).extractLsb' 16 8
      csum := (wordAt byte 8).extractLsb' 0 16
      src := Addr4.ofWord (wordAt byte 12)
      dst := Addr4.ofWord (wordAt byte 16)
      plen := flen - 20 } := by
  have h1 := unpackHw1_be32 (byte 0) (byte 1) (byte 2) (byte 3)
  have h2 := unpackHw2_be32 (byte 4) (byte 5) (byte 6) (byte 7)
  have h3 := unpackHw3_be32 (byte 8) (byte 9) (byte 10) (byte 11)
  simp only [unpackHw1, Instr.hw1.injEq] at h1
  simp only [unpackHw2, Instr.hw2.injEq] at h2
  simp only [unpackHw3, Instr.hw3.injEq] at h3
  simp only [wordAt, Nat.zero_add, Nat.reduceAdd, h1, h2, h3, swap16_append, Addr4.ofWord_be32, Record.ofFrame]

/-- The low half of the third header word is the checksum's two bytes. -/
theorem wordAt_csum (byte : Nat → Byte) : (wordAt byte 8).extractLsb' 0 16 = byte 10 ++ byte 11 :=
  (Instr.hw3.inj (unpackHw3_be32 (byte 8) (byte 9) (byte 10) (byte 11))).2.2

/-! ## The reader on a frame whose bytes are known -/

/-- `NEXTWORD` begins the word at `CUR`. -/
theorem nextWordOp_reads {s : State} {byte : Nat → Byte} {n : Nat} (hn : n ≤ s.flen)
    (hb : ∀ a, a < n → s.readByte a = some (byte a)) (hc : s.cur + 4 ≤ n) :
    nextWordOp s = .ok (s.beginWord (wordAt byte s.cur)) :=
  nextWordOp_bytes (hc.trans hn) (hb _ (by omega)) (hb _ (by omega)) (hb _ (by omega)) (hb _ (by omega))

/-- What `DECODE` writes on a frame whose header reads `byte` (R133, R137): the record in closed form, and the
reader with the last word whole in `W`, the checksum in `V`. -/
def State.decodeFrame (byte : Nat → Byte) (s : State) : State :=
  { s with
    w := wordAt byte 16
    wWritten := true
    v := (byte 10 ++ byte 11).setWidth 32
    vWritten := true
    cur := 20
    rem := 32
    record := some (Record.ofFrame byte s.flen)
    staged := Record.blank }

/-- Steps 0 to 17 of R132 and the commit, on a frame of at least 20 bytes that reads `byte`. -/
theorem decodeSteps_reads {s : State} {byte : Nat → Byte} (hl : 20 ≤ s.flen)
    (hb : ∀ a, a < 20 → s.readByte a = some (byte a)) : decodeSteps s = .ok (s.decodeFrame byte) := by
  have read (t : State) (hm : t.mem = s.mem) (hf : t.flen = s.flen) (hc : t.cur + 4 ≤ 20) :
      nextWordOp t = .ok (t.beginWord (wordAt byte t.cur)) :=
    nextWordOp_reads (hf ▸ hl) (fun a ha => by rw [State.readByte_congr hm hf, hb a ha]) hc
  simp [decodeSteps, bind, Except.bind, read, cutHw1_beginWord, cutHw2_beginWord, cutHw3_beginWord,
    cutHw4_beginWord, cutHw5_beginWord, State.decodeFrame, Record.ofFrame_eq_words, wordAt_csum,
    State.commit, State.stagePlen, State.stage]

/-! ## The commands on a running block -/

theorem exec_nextWord_ok {s t : State} (hrun : s.halt = false) (h : nextWordOp s = .ok t) :
    exec .nextWord s = .next t := by
  simp [exec, execNextWord, whenRunning_of_running hrun, h]

theorem exec_takeBits_ok {s : State} {w : BitVec 6} (hrun : s.halt = false) (hw : w.toNat ≤ 32)
    (hr : w.toNat ≤ s.rem.toNat) : exec (.takeBits w) s = .next (s.takeTop w.toNat) := by
  simp [exec, execTakeBits, whenRunning_of_running hrun, Nat.not_lt.2 hw, takeBitsOp_ok hr]

theorem exec_swap16_ok {s : State} (hrun : s.halt = false) : exec .swap16 s = .next s.swapValue := by
  simp [exec, execSwap16, whenRunning_of_running hrun]

theorem exec_decode_reads {s : State} {byte : Nat → Byte} (hrun : s.halt = false) (hl : 20 ≤ s.flen)
    (hb : ∀ a, a < 20 → s.readByte a = some (byte a)) : exec .decode s = .next (s.decodeFrame byte) := by
  simp [exec, execDecode, whenRunning_of_running hrun, Nat.not_lt.2 hl, decodeSteps_reads hl hb]

/-! ## What a completed command has written -/

/-- A transition that answers a next state and does not halt ran to its end. -/
theorem conclude_completed {s t : State} {k : Except Abort State} (h : conclude s k = .next t)
    (hh : t.halt = false) : k = .ok t := by
  rcases conclude_next h with hk | ⟨e, _, rfl⟩
  · exact hk
  · simp at hh

/-- A transition that was not refused by the check of `HALT` is the one behind the check. -/
theorem whenRunning_eq {α : Type} {s : State} {k r : Except Abort α} (h : whenRunning s k = r)
    (hr : r ≠ .error (.refuse .halted)) : k = r := by
  unfold whenRunning at h
  split at h
  · exact absurd h.symm hr
  · exact h

theorem takeBitsOp_eq_ok {w : Nat} {s t : State} (h : takeBitsOp w s = .ok t) :
    w ≤ s.rem.toNat ∧ t = s.takeTop w := by
  by_cases hr : s.rem.toNat < w
  · rw [takeBitsOp_over hr] at h; cases h
  · replace hr := Nat.le_of_not_lt hr
    rw [takeBitsOp_ok hr] at h
    exact ⟨hr, (Except.ok.inj h).symm⟩

theorem exec_nextWord_completed {s t : State} (h : exec .nextWord s = .next t) (hh : t.halt = false) :
    ∃ x, t = s.beginWord x :=
  nextWordOp_ok (whenRunning_eq (conclude_completed h hh) (by simp))

theorem exec_takeBits_completed {s t : State} {w : BitVec 6} (h : exec (.takeBits w) s = .next t)
    (hh : t.halt = false) : w.toNat ≤ 32 ∧ w.toNat ≤ s.rem.toNat ∧ t = s.takeTop w.toNat := by
  have hk := whenRunning_eq (conclude_completed h hh) (by simp)
  split at hk
  · cases hk
  · rename_i hw
    exact ⟨Nat.le_of_not_lt hw, takeBitsOp_eq_ok hk⟩

/-- `DECODE` ends with its last word whole in `W`. -/
theorem exec_decode_completed_rem {s t : State} (h : exec .decode s = .next t) (hh : t.halt = false) :
    t.rem = 32 := by
  have hk := whenRunning_eq (conclude_completed h hh) (by simp)
  split at hk
  · cases hk
  · rename_i hl
    rcases decodeSteps_cases (Nat.le_of_not_lt hl) with ⟨x, v, r, e⟩ | ⟨a, _, _, e⟩ <;> rw [e] at hk
    · exact Except.ok.inj hk ▸ rfl
    · cases hk

/-- `SWAP16` raises no error, so it has completed whenever it answers a next state. -/
theorem exec_swap16_completed {s t : State} (h : exec .swap16 s = .next t) : t = s.swapValue := by
  rw [exec_swap16_ok (exec_next_cases h).1] at h
  exact (Host.Outcome.next.inj h).symm

end Sys2Proof.Machine
end

section
/-! PROOFS. The family of `10_state.md`: what each operation does to the invariants of R37, and with it that every
step keeps them and none faults. -/

namespace Sys2Proof.Machine

/-! ## The consumed bits of `W` (R37 item 7) -/

/-- A take counts `REM` down without wrapping. -/
theorem State.takeTop_rem_toNat {s : State} {n : Nat} (hn : n ≤ s.rem.toNat) :
    (s.takeTop n).rem.toNat = s.rem.toNat - n := by
  have hrem := s.rem.isLt
  rw [State.takeTop_rem, BitVec.toNat_sub, BitVec.toNat_ofNat]
  omega

/-- With all 32 bits remaining none is consumed. -/
theorem State.consumedZero_of_rem {s : State} (h : s.rem = 32) : s.ConsumedZero := by
  intro i hi
  simp [h] at hi

/-- A take shifts the zeros up by as many bits as it consumes, and zeros come in below them. -/
theorem State.ConsumedZero.takeTop {s : State} (h : s.ConsumedZero) {n : Nat} (hn : n ≤ s.rem.toNat) :
    (s.takeTop n).ConsumedZero := by
  intro i hi
  rw [State.takeTop_rem_toNat hn] at hi
  simp only [State.takeTop_w, takeBits, shl32, BitVec.getLsbD_shiftLeft, Bool.and_eq_false_iff]
  by_cases hlow : i < n
  · simp [hlow]
  · exact .inr (h (i - n) (by omega))

/-! ## What each operation does to the invariants -/

theorem State.Inv.accept {s : State} (hs : s.Inv) (rest : List Transaction) : (s.accept rest).Inv :=
  { hs with }

theorem State.Inv.reply {s : State} (hs : s.Inv) (x : Nat) : (s.reply x).Inv :=
  { hs with }

theorem State.Inv.swapValue {s : State} (hs : s.Inv) : s.swapValue.Inv :=
  { hs with }

/-- Fault entry sets `HALT` and an error together, and drops the record. -/
theorem State.Inv.faultEntry {s : State} (hs : s.Inv) {e : ErrCode} (he : e ≠ .noError) :
    (s.faultEntry e).Inv :=
  { hs with
    haltErr := by simp [he]
    haltInvalid := fun _ => rfl
    recordOfFrame := by simp }

theorem State.Inv.resetBlock {s : State} (hs : s.Inv) : s.resetBlock.Inv :=
  { State.resetOf_inv hs.bufMaxLegal with
    consumedZero := by simp
    wordWritten := by simp }

/-- `LOAD` takes a frame that is held, leaves no bits of the word before, and drops the record. -/
theorem State.Inv.loadFrame {s : State} (hs : s.Inv) {bytes : List Byte} (hb : bytes.length ≤ s.bufMax) :
    (s.loadFrame bytes).Inv :=
  { hs with
    frameHeld := s.loadFrame_frameHeld bytes
    flenBound := hb
    curAligned := rfl
    curInFrame := Nat.zero_le _
    remBound := Nat.zero_le 32
    haltInvalid := fun _ => rfl
    recordOfFrame := by simp
    consumedZero := by simp
    wordWritten := by simp }

/-- `NEXTWORD` moves `CUR` by a whole word within the frame, and none of the new word is consumed. -/
theorem State.Inv.beginWord {s : State} (hs : s.Inv) (x : Word) (hc : s.cur + 4 ≤ s.flen) :
    (s.beginWord x).Inv :=
  { hs with
    curAligned := by rw [State.beginWord_cur, Nat.add_mod_right]; exact hs.curAligned
    curInFrame := hc
    remBound := Nat.le_refl 32
    consumedZero := fun _ => State.consumedZero_of_rem rfl
    wordWritten := fun _ => rfl }

/-- A take only lowers `REM`, so where bits remain after it they remained before it. -/
theorem State.Inv.takeTop {s : State} (hs : s.Inv) {n : Nat} (hn : n ≤ s.rem.toNat) : (s.takeTop n).Inv := by
  have hrem := State.takeTop_rem_toNat hn
  exact
    { hs with
      remBound := by rw [hrem]; exact (Nat.sub_le _ n).trans hs.remBound
      consumedZero := fun h => (hs.consumedZero (by omega)).takeTop hn
      wordWritten := fun h => hs.wordWritten (by omega) }

/-- A completed `DECODE` gives the record of the frame, which R37 item 6 asks for. -/
theorem State.Inv.decodeFrame {s : State} (hs : s.Inv) (hrun : s.halt = false) (hl : 20 ≤ s.flen) :
    (s.decodeFrame s.byteAt).Inv :=
  { hs with
    curAligned := by simp [State.decodeFrame]
    curInFrame := hl
    remBound := Nat.le_refl 32
    haltInvalid := fun hh => absurd (hrun.symm.trans hh) Bool.false_ne_true
    recordOfFrame := fun r hr => ⟨hl, (Option.some.inj hr).symm⟩
    consumedZero := fun _ => State.consumedZero_of_rem rfl
    wordWritten := fun _ => rfl
    stagedBlank := rfl }

/-- On a held frame `DECODE` runs to its end once the length check has passed. -/
theorem exec_decode_held {s : State} (hf : s.FrameHeld) (hrun : s.halt = false) (hl : 20 ≤ s.flen) :
    exec .decode s = .next (s.decodeFrame s.byteAt) :=
  exec_decode_reads hrun hl fun _ ha => hf.readByte_eq (by omega)

/-- Every step keeps the invariants: its effect is one of the operations above, on the state with the
transaction taken. -/
theorem step_inv {s t : State} (hs : s.Inv) (h : step s = .next t) : t.Inv := by
  rcases step_next_cases h with ⟨_, rfl⟩ | ⟨tr, rest, _, effect⟩
  · exact hs
  have hs' := hs.accept rest
  rcases effect with ⟨_, rfl⟩ | ⟨_, e, he, _, rfl⟩ | ⟨_, bytes, _, hb, rfl⟩ |
    ⟨hrun, c, i, _, _, hexec, command⟩ | ⟨r, x, _, _, _, rfl⟩ | ⟨_, i, x, _, _, rfl⟩
  · exact hs'.resetBlock
  · exact hs'.faultEntry he
  · exact hs'.loadFrame hb
  · rcases command with ⟨_, hc, x, rfl⟩ | ⟨w, _, _, hw, rfl⟩ | ⟨_, rfl⟩ | ⟨rfl, hl, _⟩
    · exact hs'.beginWord x hc
    · exact hs'.takeTop hw
    · exact hs'.swapValue
    · rw [exec_decode_held hs'.frameHeld hrun hl] at hexec
      exact Host.Outcome.next.inj hexec ▸ hs'.decodeFrame hrun hl
  · exact hs'.reply x
  · exact hs'.reply x

/-- Settles O42: `step_inv`, and a held frame of at most `BUF_MAX` bytes is canonical and lies within `FB`. -/
theorem stepKeepsTheInvariants : Obligations.StepKeepsTheInvariants := by
  intro s t hs h
  have ht := step_inv hs h
  exact ⟨ht, ht.frameHeld.mem_wf, ht.frameHeld.mem_within ht.flenBound⟩

/-! ## No step faults -/

/-- The one way a transition ends in a fault: it met a byte that holds no value. -/
theorem conclude_fault {s : State} {k : Except Abort State} {f : Fault} (h : conclude s k = .fault f) :
    ∃ a, k = .error (.noValue a) := by
  rcases k with (e | a | r) | t
  · simp at h
  · exact ⟨a, rfl⟩
  · simp at h
  · simp at h

/-- On a held frame `NEXTWORD` finds a value in every byte it reads. -/
theorem State.FrameHeld.nextWordOp_ne_noValue {s : State} (hf : s.FrameHeld) (a : Nat) :
    nextWordOp s ≠ .error (.noValue a) := by
  by_cases hc : s.flen - s.cur < 4
  · simp [nextWordOp_short hc]
  · simp [nextWordOp_reads (Nat.le_refl _) (fun _ => hf.readByte_eq) (by omega : s.cur + 4 ≤ s.flen)]

/-- On a held frame no command faults. -/
theorem State.FrameHeld.exec_ne_fault {s : State} (hf : s.FrameHeld) {i : Instr} (hi : i.format = .cmd8)
    (f : Fault) : exec i s ≠ .fault f := by
  intro h
  cases i with
  | nextWord =>
    obtain ⟨a, ha⟩ := conclude_fault h
    exact hf.nextWordOp_ne_noValue a (whenRunning_eq ha (by simp))
  | takeBits w =>
    obtain ⟨a, ha⟩ := conclude_fault h
    have hk := whenRunning_eq ha (by simp)
    unfold takeBitsOp at hk
    split at hk
    · cases hk
    · split at hk <;> cases hk
  | swap16 =>
    obtain ⟨a, ha⟩ := conclude_fault h
    cases whenRunning_eq ha (by simp)
  | decode =>
    obtain ⟨a, ha⟩ := conclude_fault h
    have hk := whenRunning_eq ha (by simp)
    split at hk
    · cases hk
    · rename_i hl
      replace hl : 20 ≤ s.flen := Nat.le_of_not_lt hl
      rw [decodeSteps_reads hl fun _ ha => hf.readByte_eq (ha.trans_le hl)] at hk
      cases hk
  | hw1 | hw2 | hw3 | hw4 | hw5 => cases hi

/-- A `READ` of a register reads no byte of the frame. -/
theorem readReg_ne_noValue (r : Reg) (s : State) (a : Nat) : readReg r s ≠ .error (.noValue a) := by
  cases r <;> simp only [readReg, readRunning, readWritten, readRecord, whenRunning] <;> repeat' split
  all_goals simp

/-- Under the invariants the payload lies within the held frame. -/
theorem State.Inv.readPayload_ne_noValue {s : State} (hs : s.Inv) (i a : Nat) :
    readPayload i s ≠ .error (.noValue a) := by
  intro h
  have hk := whenRunning_eq h (by simp)
  split at hk
  · cases hk
  · rename_i r hr
    split at hk
    · cases hk
    · have hplen := hs.plen_eq hr
      rw [hs.frameHeld.readByte_eq (a := Config.hdrBytes + i) (by simp only [Config.hdrBytes]; omega)] at hk
      cases hk

/-- Under the invariants no transaction faults. -/
theorem State.Inv.perform_ne_fault {s : State} (hs : s.Inv) (tr : Transaction) (f : Fault) :
    perform tr s ≠ .fault f := by
  intro h
  cases tr with
  | reset => cases h
  | load bytes =>
    obtain ⟨a, ha⟩ := conclude_fault h
    have hk := whenRunning_eq ha (by simp)
    split at hk <;> cases hk
  | rxfail =>
    obtain ⟨a, ha⟩ := conclude_fault h
    cases whenRunning_eq ha (by simp)
  | cmd c =>
    simp only [perform, doCmd] at h
    split at h
    · cases h
    · split at h
      · cases h
      · rename_i i hd
        exact hs.frameHeld.exec_ne_fault (decode_cmd8_format hd) f h
  | read r =>
    obtain ⟨a, ha⟩ := conclude_fault h
    exact readReg_ne_noValue r s a (map_reply_error ha)
  | readPay i =>
    obtain ⟨a, ha⟩ := conclude_fault h
    exact hs.readPayload_ne_noValue i a (map_reply_error ha)

/-- Settles O43: a step with nothing pending keeps its state, and else performs a transaction
(`State.Inv.perform_ne_fault`). -/
theorem invariantsRuleOutFaults : Obligations.InvariantsRuleOutFaults := by
  intro s hs f h
  unfold step at h
  split at h
  · cases h
  · exact (hs.accept _).perform_ne_fault _ f h

end Sys2Proof.Machine
end

section
/-! PROOFS. The family of `10_state.md`: what each command and each transaction writes and leaves, the values of
`STATUS`, and `DECODE` as a run of the reader commands. -/

namespace Sys2Proof.Machine

/-! ## The commands -/

/-- Settles O11: on a held frame the word at `CUR` is that of the bytes read there (`wireByte_wordAt`). -/
theorem nextWordCompletesOnAHeldFrame : Obligations.NextWordCompletesOnAHeldFrame := by
  intro s hf hrun hc
  refine ⟨wordAt s.byteAt s.cur, fun i => ?_, ?_⟩
  · have hi := i.isLt
    rw [hf.readByte_eq (by omega)]
    exact congrArg some (wireByte_wordAt s.byteAt s.cur i).symm
  · exact exec_nextWord_ok hrun (nextWordOp_reads (Nat.le_refl _) (fun _ => hf.readByte_eq) hc)

/-- An instruction that leaves the block halted wrote the fault entry and nothing else (R187). -/
theorem exec_next_halted {i : Instr} {s t : State} (h : exec i s = .next t) (hh : t.halt = true) :
    ∃ e, t = s.faultEntry e := by
  obtain ⟨hrun, effect⟩ := exec_next_cases h
  rcases effect with ⟨e, _, ht, _⟩ | ⟨_, _, x, rfl⟩ | ⟨w, _, _, _, rfl⟩ | ⟨_, rfl⟩ |
    ⟨_, _, x, v, r, rfl⟩ | ⟨_, _, w, v, vw, rem, staged, rfl⟩
  · exact ⟨e, ht⟩
  all_goals simp [hrun] at hh

/-- No instruction writes the frame, the pending transactions, the answer or the counter of free values. -/
theorem exec_leaves_frame {i : Instr} {s t : State} (h : exec i s = .next t) :
    t.mem = s.mem ∧ t.flen = s.flen ∧ t.port = s.port ∧ t.answer = s.answer ∧ t.fresh = s.fresh := by
  rcases (exec_next_cases h).2 with ⟨e, _, rfl, _⟩ | ⟨_, _, x, rfl⟩ | ⟨w, _, _, _, rfl⟩ | ⟨_, rfl⟩ |
    ⟨_, _, x, v, r, rfl⟩ | ⟨_, _, w, v, vw, rem, staged, rfl⟩
  all_goals exact ⟨rfl, rfl, rfl, rfl, rfl⟩

/-- Without an error `ERR` stays, and only `DECODE` writes the record. -/
theorem exec_running_err_record {i : Instr} {s t : State} (h : exec i s = .next t) (hh : t.halt = false) :
    t.err = s.err ∧ (i ≠ .decode → t.record = s.record) := by
  rcases (exec_next_cases h).2 with ⟨e, _, rfl, _⟩ | ⟨_, _, x, rfl⟩ | ⟨w, _, _, _, rfl⟩ | ⟨_, rfl⟩ |
    ⟨hi, _, x, v, r, rfl⟩ | ⟨_, _, w, v, vw, rem, staged, rfl⟩
  · simp at hh
  · exact ⟨rfl, fun _ => rfl⟩
  · exact ⟨rfl, fun _ => rfl⟩
  · exact ⟨rfl, fun _ => rfl⟩
  · exact ⟨rfl, fun hn => absurd hi hn⟩
  · exact ⟨rfl, fun _ => rfl⟩

/-- Settles O25: an error leaves everything but the fault entry (`exec_next_halted`), and a completed command
writes what its operation does. -/
theorem commandsLeaveTheFrame : Obligations.CommandsLeaveTheFrame := by
  intro i s t h
  obtain ⟨hmem, hflen, hport, hanswer, hfresh⟩ := exec_leaves_frame h
  refine ⟨State.readByte_congr hmem hflen, hmem, hflen, hport, hanswer, hfresh, exec_running_err_record h,
    fun hh => ?_, ?_, ?_, ?_⟩
  · obtain ⟨e, rfl⟩ := exec_next_halted h hh
    exact ⟨rfl, rfl, rfl, rfl, rfl, rfl, rfl⟩
  · rintro rfl
    cases hh : t.halt with
    | true => obtain ⟨e, rfl⟩ := exec_next_halted h hh; exact ⟨rfl, rfl, rfl⟩
    | false => obtain ⟨x, rfl⟩ := exec_nextWord_completed h hh; exact ⟨rfl, rfl, rfl⟩
  · rintro ⟨w, rfl⟩
    cases hh : t.halt with
    | true => obtain ⟨e, rfl⟩ := exec_next_halted h hh; exact ⟨rfl, rfl, rfl⟩
    | false => obtain ⟨_, _, rfl⟩ := exec_takeBits_completed h hh; exact ⟨rfl, rfl, rfl⟩
  · rintro rfl
    obtain rfl := exec_swap16_completed h
    exact ⟨rfl, rfl, rfl, rfl, rfl, rfl⟩

/-- Settles O45: a taken value is `W` shifted right by `32 - w`, and a swapped one the zero-extension of 16
bits. -/
theorem valuesFitTheirWidth : Obligations.ValuesFitTheirWidth := by
  refine ⟨fun s t w h hh => ?_, fun s t h => ?_⟩
  · obtain ⟨hw, _, rfl⟩ := exec_takeBits_completed h hh
    rw [State.takeTop_v, takeBits, shr32_toNat]
    apply Nat.div_lt_of_lt_mul
    rw [← Nat.pow_add, Nat.sub_add_cancel hw]
    exact s.w.isLt
  · obtain rfl := exec_swap16_completed h
    rw [State.swapValue_v, BitVec.toNat_setWidth_of_le (by decide)]
    exact BitVec.isLt _

/-! ## The steps -/

/-- A step keeps the consumed bits of `W` zero, unless it is a `LOAD` or a `RESET`: `NEXTWORD` and `DECODE` leave
none consumed, and the others but `TAKEBITS` write neither `W` nor `REM`. -/
theorem step_consumedZero {s t : State} (hz : s.ConsumedZero) (h : step s = .next t)
    (hreset : s.port.head? ≠ some .reset) (hload : ∀ bytes, s.port.head? ≠ some (.load bytes)) :
    t.ConsumedZero := by
  rcases step_next_cases h with ⟨_, rfl⟩ | ⟨tr, rest, hp, effect⟩
  · exact hz
  rw [hp, List.head?_cons] at hreset hload
  have hz' : (s.accept rest).ConsumedZero := hz
  rcases effect with ⟨rfl, _⟩ | ⟨_, e, _, _, rfl⟩ | ⟨_, bytes, rfl, _⟩ |
    ⟨_, c, i, _, _, _, command⟩ | ⟨r, x, _, _, _, rfl⟩ | ⟨_, i, x, _, _, rfl⟩
  · exact absurd rfl hreset
  · exact hz'
  · exact absurd rfl (hload bytes)
  · rcases command with ⟨_, _, x, rfl⟩ | ⟨w, _, _, hw, rfl⟩ | ⟨_, rfl⟩ | ⟨_, _, x, v, r, rfl⟩
    · exact State.consumedZero_of_rem rfl
    · exact hz'.takeTop hw
    · exact hz'
    · exact State.consumedZero_of_rem rfl
  · exact hz'
  · exact hz'

/-- Settles O44: a completed `NEXTWORD` or `DECODE` leaves all 32 bits remaining, and then `step_consumedZero`. -/
theorem consumedBitsOfTheWordAreZero : Obligations.ConsumedBitsOfTheWordAreZero := by
  refine ⟨fun s t h hh => ?_, fun s t h hh => ?_, fun s t _ hz h => step_consumedZero hz h⟩
  · obtain ⟨x, rfl⟩ := exec_nextWord_completed h hh
    exact State.consumedZero_of_rem rfl
  · exact State.consumedZero_of_rem (exec_decode_completed_rem h hh)

/-- Settles O38: of the effects a step can have, a halted block has those of an answered `READ` and of `RESET`
alone. -/
theorem haltStaysUntilReset : Obligations.HaltStaysUntilReset := by
  intro s t hh h hreset
  have not_running : s.halt ≠ false := by simp [hh]
  rcases step_next_cases h with ⟨hp, rfl⟩ | ⟨tr, rest, hp, effect⟩
  · rw [hp, List.tail_nil, ← hp]
  rw [hp, List.tail_cons]
  rcases effect with ⟨rfl, _⟩ | ⟨hrun, _⟩ | ⟨hrun, _⟩ | ⟨hrun, _⟩ | ⟨r, x, _, _, _, rfl⟩ | ⟨hrun, _⟩
  · exact absurd (by rw [hp, List.head?_cons]) hreset
  · exact absurd hrun not_running
  · exact absurd hrun not_running
  · exact absurd hrun not_running
  · rfl
  · exact absurd hrun not_running

/-- Of the 256 command words 0xC0 alone is `DECODE` (R81, R82). -/
theorem eq_of_decode_cmd8_decode {c : Byte} (h : decode .cmd8 [c] = .ok .decode) : c = 0xC0 := by
  revert c
  decide

/-- Settles O34: each effect a step can have, read for the registers it writes. -/
theorem writersAreAsListed : Obligations.WritersAreAsListed := by
  intro s t tr rest hp h
  rcases step_next_cases h with ⟨hnil, _⟩ | ⟨tr', rest', hp', effect⟩
  · simp [hp] at hnil
  obtain ⟨rfl, rfl⟩ := List.cons.inj (hp.symm.trans hp')
  rcases effect with ⟨rfl, rfl⟩ | ⟨hrun, e, he, hraise, rfl⟩ | ⟨_, bytes, rfl, _, rfl⟩ |
    ⟨_, c, i, rfl, hd, hexec, command⟩ | ⟨r, x, rfl, _, _, rfl⟩ | ⟨_, i, x, rfl, _, rfl⟩
  · simp
  · refine ⟨by simp, by simp, by simp, fun _ => .inr ⟨hrun, rfl, he, rfl⟩, ?_⟩
    rintro (⟨r, rfl⟩ | ⟨i, rfl⟩) <;> simp [Transaction.canRaise] at hraise
  · simp
  · obtain ⟨hmem, hflen, _⟩ := exec_leaves_frame hexec
    refine ⟨by simp [hmem, hflen], ?_, fun _ => .inr ⟨c, rfl⟩, ?_, by simp⟩
    · intro hrecord
      rcases command with ⟨_, _, x, rfl⟩ | ⟨w, _, _, _, rfl⟩ | ⟨_, rfl⟩ | ⟨rfl, _⟩
      · exact absurd rfl hrecord
      · exact absurd rfl hrecord
      · exact absurd rfl hrecord
      · exact .inr (congrArg Transaction.cmd (eq_of_decode_cmd8_decode hd))
    · rcases command with ⟨_, _, x, rfl⟩ | ⟨w, _, _, _, rfl⟩ | ⟨_, rfl⟩ | ⟨_, _, x, v, r, rfl⟩ <;> simp
  · exact ⟨by simp, by simp, by simp, by simp, fun _ => rfl⟩
  · exact ⟨by simp, by simp, by simp, by simp, fun _ => rfl⟩

/-! ## The reset state and `STATUS` -/

/-- Settles O40: every field is the table's, and with `FLEN` 0 no address holds a byte. -/
theorem resetStateIsAsListed : Obligations.ResetStateIsAsListed :=
  ⟨rfl, rfl, rfl, rfl, rfl, rfl, rfl, rfl, rfl, fun _ => rfl⟩

/-- `STATUS` as a number: `ERR` from bit 2 on, `HALT` in bit 1, `VALID` in bit 0 (R31). -/
theorem State.status_toNat (s : State) :
    s.status.toNat = s.err.code.toNat * 4 + s.halt.toNat * 2 + s.valid.toNat := by
  have h : ((0 : BitVec 3) ++ s.err.code ++ BitVec.ofBool s.halt ++ BitVec.ofBool s.valid).toNat =
      s.err.code.toNat * 4 + s.halt.toNat * 2 + s.valid.toNat := by
    simp only [append_toNat, BitVec.toNat_ofBool, BitVec.ofNat_eq_ofNat, BitVec.toNat_ofNat]
    omega
  exact h

/-- Settles O39: `State.status_toNat`, where `ERR` has three bits, so nothing reaches bit 5. -/
theorem statusShowsTheThreeRegisters : Obligations.StatusShowsTheThreeRegisters := by
  refine ⟨fun s => ⟨?_, ?_⟩, rfl, rfl, rfl, rfl, rfl, rfl⟩
  · rw [s.status_toNat]
    cases s.halt <;> cases s.valid <;> simp <;> omega
  · apply BitVec.eq_of_toNat_eq
    have herr := s.err.code.isLt
    have hhalt := s.halt.toNat_le
    have hvalid := s.valid.toNat_le
    rw [extract_toNat, s.status_toNat]
    show _ = 0
    omega

/-- Under the invariants an error halts the block and leaves no record, so `STATUS` is its code and `HALT`. -/
theorem State.Inv.status_of_error {s : State} (hs : s.Inv) (h : s.err ≠ .noError) :
    s.status = BitVec.ofNat 8 (s.err.code.toNat * 4 + 2) := by
  have hhalt : s.halt = true := hs.haltErr.2 h
  have hrecord : s.record = none := hs.haltInvalid hhalt
  apply BitVec.eq_of_toNat_eq
  have herr := s.err.code.isLt
  rw [s.status_toNat, BitVec.toNat_ofNat]
  simp only [State.valid, hhalt, hrecord, Option.isSome_none, Bool.toNat_true, Bool.toNat_false]
  omega

/-- Under the invariants a block without an error runs, so `STATUS` is `VALID`. -/
theorem State.Inv.status_of_noError {s : State} (hs : s.Inv) (h : s.err = .noError) :
    s.status = if s.record = none then 0x00 else 0x01 := by
  have hhalt : s.halt = false := by simpa [h] using hs.haltErr
  cases hrecord : s.record <;> simp [State.status, State.valid, h, hhalt, hrecord, ErrCode.code]

/-- Settles O46: with no error `State.Inv.status_of_noError`, and else `State.Inv.status_of_error` for the error's
code. -/
theorem statusHasSevenValues : Obligations.StatusHasSevenValues := by
  intro s hs
  cases herr : s.err with
  | noError => exact hs.status_of_noError herr
  | shortBuffer | socketReadFailure | precondWord | precondTake | badRequest =>
    rw [hs.status_of_error (by simp [herr]), herr]
    rfl

/-! ## `DECODE` as a run of the reader commands (R132) -/

/-- A run of commands begins with the state the first one leaves. -/
theorem execTrace_cons {i : Instr} {is : List Instr} {s t : State} {ts : List State}
    (hfirst : exec i s = .next t) (hrest : execTrace is t = some ts) :
    execTrace (i :: is) s = some (t :: ts) := by
  simp [execTrace, hfirst, hrest]

/-- `s` with other contents of the reader: what a `NEXTWORD` and the commands after it leave of a block `s`. -/
def State.withReader (w v : Word) (vWritten : Bool) (cur rem : Nat) (s : State) : State :=
  { s with w := w, wWritten := true, v := v, vWritten := vWritten, cur := cur, rem := BitVec.ofNat 6 rem }

section
variable {s : State} (hrun : s.halt = false) {byte : Nat → Byte}
include hrun

/-- `NEXTWORD` at `CUR = c` of a frame that reads `byte`, whatever the reader held. -/
theorem exec_nextWord_withReader (hl : 20 ≤ s.flen) (hb : ∀ a, a < 20 → s.readByte a = some (byte a))
    {w v : Word} {vWritten : Bool} {rem : Nat} (c : Nat) (hc : c + 4 ≤ 20) :
    exec .nextWord (s.withReader w v vWritten c rem) =
      .next (s.withReader (shl32 (wordAt byte c) 0) v vWritten (c + 4) 32) := by
  rw [shl32_zero]
  exact exec_nextWord_ok hrun (nextWordOp_reads hl hb hc)

/-- `TAKEBITS n` on a word `x` of which `k` bits have been taken. -/
theorem exec_takeBits_withReader {x v : Word} {vWritten : Bool} {cur : Nat} (k n : Nat) (h : k + n ≤ 32) :
    exec (.takeBits (BitVec.ofNat 6 n)) (s.withReader (shl32 x k) v vWritten cur (32 - k)) =
      .next (s.withReader (shl32 x (k + n)) (shr32 (shl32 x k) (32 - n)) true cur (32 - (k + n))) := by
  have hn : (BitVec.ofNat 6 n).toNat = n := by rw [BitVec.toNat_ofNat]; omega
  have hk : (BitVec.ofNat 6 (32 - k)).toNat = 32 - k := by rw [BitVec.toNat_ofNat]; omega
  have hrem : BitVec.ofNat 6 (32 - k) - BitVec.ofNat 6 n = BitVec.ofNat 6 (32 - (k + n)) := by
    apply BitVec.eq_of_toNat_eq
    rw [BitVec.toNat_sub, hn, hk, BitVec.toNat_ofNat]
    omega
  rw [exec_takeBits_ok (s := s.withReader (shl32 x k) v vWritten cur (32 - k)) hrun (by omega)
    (by simp only [State.withReader, hn, hk]; omega), hn]
  simp only [State.withReader, State.takeTop, takeBits, shl32_shl32, hrem, Bool.true_or]

/-- `SWAP16` on a value `v`. -/
theorem exec_swap16_withReader {w v : Word} {vWritten : Bool} {cur rem : Nat} :
    exec .swap16 (s.withReader w v vWritten cur rem) =
      .next (s.withReader w ((Machine.swap16 (v.setWidth 16)).setWidth 32) vWritten cur rem) :=
  exec_swap16_ok hrun

/-- `DECODE` on a frame that reads `byte` leaves the reader as its last words do: the fifth whole in `W`, the checksum,
cut from the third, in `V`. -/
theorem exec_decode_withReader (hl : 20 ≤ s.flen) (hb : ∀ a, a < 20 → s.readByte a = some (byte a)) :
    exec .decode s = .next
      { s.withReader (shl32 (wordAt byte 16) 0) (shr32 (shl32 (wordAt byte 8) 16) (32 - 16)) true 20 32 with
        record := some (Record.ofFrame byte s.flen), staged := Record.blank } := by
  rw [exec_decode_reads hrun hl hb, shl32_zero, take_eq_setWidth_field _ 16 16 (by decide), wordAt_csum]
  rfl

end

/-- Settles O17: the trace is the commands on the words that stand in the frame, one after another, each field the
slice of its word that `Record.ofFrame_eq_words` names (`take_eq_field`). -/
theorem decodeIsTheCommandSequence : Obligations.DecodeIsTheCommandSequence := by
  intro s hf hrun hl
  have hb (a : Nat) (ha : a < 20) : s.readByte a = some (s.byteAt a) := hf.readByte_eq (ha.trans_le hl)
  have first : exec .nextWord { s with cur := 0 } =
      .next (s.withReader (shl32 (wordAt s.byteAt 0) 0) s.v s.vWritten 4 32) := by
    rw [shl32_zero]
    exact exec_nextWord_ok hrun (nextWordOp_reads hl hb (Nat.le_add_left 4 16))
  refine ⟨_, _, _, _, _, _, _, _, _, _, _, _, _, _, _, _, _, Record.ofFrame s.byteAt s.flen,
    execTrace_cons first <|
    execTrace_cons (exec_takeBits_withReader hrun 0 4 (by decide)) <|
    execTrace_cons (exec_takeBits_withReader hrun 4 4 (by decide)) <|
    execTrace_cons (exec_takeBits_withReader hrun 8 6 (by decide)) <|
    execTrace_cons (exec_takeBits_withReader hrun 14 2 (by decide)) <|
    execTrace_cons (exec_takeBits_withReader hrun 16 16 (by decide)) <|
    execTrace_cons (exec_swap16_withReader hrun) <|
    execTrace_cons (exec_nextWord_withReader hrun hl hb 4 (by decide)) <|
    execTrace_cons (exec_takeBits_withReader hrun 0 16 (by decide)) <|
    execTrace_cons (exec_takeBits_withReader hrun 16 2 (by decide)) <|
    execTrace_cons (exec_takeBits_withReader hrun 18 14 (by decide)) <|
    execTrace_cons (exec_nextWord_withReader hrun hl hb 8 (by decide)) <|
    execTrace_cons (exec_takeBits_withReader hrun 0 8 (by decide)) <|
    execTrace_cons (exec_takeBits_withReader hrun 8 8 (by decide)) <|
    execTrace_cons (exec_takeBits_withReader hrun 16 16 (by decide)) <|
    execTrace_cons (exec_nextWord_withReader hrun hl hb 12 (by decide)) <|
    execTrace_cons (exec_nextWord_withReader hrun hl hb 16 (by decide)) rfl, ?_⟩
  have field (a k n : Nat) (h : k + n ≤ 32) : (wordAt s.byteAt a).extractLsb' (32 - k - n) n =
      (shr32 (shl32 (wordAt s.byteAt a) k) (32 - n)).setWidth n := (take_eq_field _ k n h).symm
  have swapped : Machine.swap16 ((wordAt s.byteAt 0).extractLsb' 0 16) =
      ((Machine.swap16 ((shr32 (shl32 (wordAt s.byteAt 0) 16) (32 - 16)).setWidth 16)).setWidth 32).setWidth 16 := by
    rw [setWidth_16_32_16, take_eq_field _ 16 16 (by decide)]
  obtain ⟨ver, ihl, ds, ecn, tlen, ident, flags, frag, ttl, proto, csum, _⟩ :=
    Record.mk.inj (Record.ofFrame_eq_words s.byteAt s.flen)
  exact ⟨exec_decode_withReader hrun hl hb,
    ver.trans (field 0 0 4 (by decide)), ihl.trans (field 0 4 4 (by decide)), ds.trans (field 0 8 6 (by decide)),
    ecn.trans (field 0 14 2 (by decide)), tlen.trans swapped,
    ident.trans (field 4 0 16 (by decide)), flags.trans (field 4 16 2 (by decide)),
    frag.trans (field 4 18 14 (by decide)),
    ttl.trans (field 8 0 8 (by decide)), proto.trans (field 8 8 8 (by decide)),
    csum.trans (field 8 16 16 (by decide)),
    shl32_zero _, shl32_zero _, rfl⟩

end Sys2Proof.Machine
end

section
/-! PROOFS. The family of `20_memory.md`: `DECODE` as a run of the frame's five header words, each decoded in the
format of its place (R51, R132). -/

namespace Sys2Proof.Machine

/-! ## A decoded header word is the word itself, cut (R71 to R73) -/

theorem packHw1_fields (x : Word) : packHw1 (x.extractLsb' 28 4) (x.extractLsb' 24 4) (x.extractLsb' 18 6)
    (x.extractLsb' 16 2) (x.extractLsb' 0 16) = x := by
  apply BitVec.eq_of_toNat_eq
  simp only [packHw1_toNat, extract_toNat]
  omega

theorem packHw2_fields (x : Word) :
    packHw2 (x.extractLsb' 16 16) (x.extractLsb' 14 2) (x.extractLsb' 0 14) = x := by
  apply BitVec.eq_of_toNat_eq
  simp only [packHw2_toNat, extract_toNat]
  omega

theorem packHw3_fields (x : Word) :
    packHw3 (x.extractLsb' 24 8) (x.extractLsb' 16 8) (x.extractLsb' 0 16) = x := by
  apply BitVec.eq_of_toNat_eq
  simp only [packHw3_toNat, extract_toNat]
  omega

theorem exec_unpackHw1 (x : Word) (s : State) :
    exec (unpackHw1 x) s = conclude s (whenRunning s (headerWordOp x cutHw1 s)) := by
  simp only [unpackHw1, exec, execHw1, packHw1_fields]

theorem exec_unpackHw2 (x : Word) (s : State) :
    exec (unpackHw2 x) s = conclude s (whenRunning s (headerWordOp x cutHw2 s)) := by
  simp only [unpackHw2, exec, execHw2, packHw2_fields]

theorem exec_unpackHw3 (x : Word) (s : State) :
    exec (unpackHw3 x) s = conclude s (whenRunning s (headerWordOp x cutHw3 s)) := by
  simp only [unpackHw3, exec, execHw3, packHw3_fields]

/-! ## One header word of the frame, under `DECODE` and as an instruction -/

/-- A running block with `CUR = c` on a frame of `n` bytes whose header reads `byte`. -/
structure State.AtWord (byte : Nat → Byte) (n c : Nat) (s : State) : Prop where
  running : s.halt = false
  flen : s.flen = n
  cur : s.cur = c
  reads : ∀ a, a < 20 → s.readByte a = some (byte a)

/-- `DECODE`'s `NEXTWORD` and cut of the word at `CUR` and the word executed as an instruction lead to one state, which
stands at the next word. -/
theorem State.AtWord.runs {byte : Nat → Byte} {n c : Nat} {s : State} (hs : s.AtWord byte n c) (hn : 20 ≤ n)
    (hc : c + 4 ≤ 20) {i : Instr} {cut : State → Except Abort State}
    (hexec : exec i s = conclude s (whenRunning s (headerWordOp (wordAt byte c) cut s)))
    (hcut : ∃ w v vw rem staged, cut (s.beginWord (wordAt byte c)) = .ok { s with
      w := w, wWritten := true, v := v, vWritten := vw, cur := s.cur + 4, rem := rem, staged := staged }) :
    ∃ t, exec i s = .next t ∧ nextWordOp s = .ok (s.beginWord (wordAt byte c)) ∧
      cut (s.beginWord (wordAt byte c)) = .ok t ∧ t.AtWord byte n (c + 4) := by
  obtain ⟨hrun, rfl, rfl, hb⟩ := hs
  obtain ⟨w, v, vw, rem, staged, h⟩ := hcut
  refine ⟨_, ?_, nextWordOp_reads hn hb hc, h, hrun, rfl, rfl,
    fun a ha => (State.readByte_congr rfl rfl a).trans (hb a ha)⟩
  rw [hexec, whenRunning_of_running hrun, headerWordOp_ok (hc.trans hn), h, conclude_ok]

/-! ## The five header words -/

/-- A run goes on from the state its first instruction answers. -/
theorem execSeq_cons {i : Instr} {is : List Instr} {s t : State} {o : Host.Outcome State Fault Refusal}
    (hfirst : exec i s = .next t) (hrest : execSeq is t = o) : execSeq (i :: is) s = o := by
  simp only [execSeq, hfirst, hrest]

theorem exec_decode_ok {s t : State} (hrun : s.halt = false) (hl : 20 ≤ s.flen) (h : decodeSteps s = .ok t) :
    exec .decode s = .next t := by
  simp [exec, execDecode, whenRunning_of_running hrun, Nat.not_lt.2 hl, h]

/-- Settles O18: word by word, the steps of `DECODE` and the decoded header words lead through the same states
(`State.AtWord.runs`), and the last of them is committed with its `PLEN`. -/
theorem decodeRunsTheHeaderWords : Obligations.DecodeRunsTheHeaderWords := by
  intro s b hrun hl hb
  have start : { s with cur := 0 }.AtWord b s.flen 0 := ⟨hrun, rfl, rfl, hb⟩
  obtain ⟨t1, e1, n1, c1, at1⟩ := start.runs hl (by decide) (exec_unpackHw1 _ _)
    ⟨_, _, _, _, _, cutHw1_beginWord _ _⟩
  obtain ⟨t2, e2, n2, c2, at2⟩ := at1.runs hl (by decide) (exec_unpackHw2 _ _)
    ⟨_, _, _, _, _, cutHw2_beginWord _ _⟩
  obtain ⟨t3, e3, n3, c3, at3⟩ := at2.runs hl (by decide) (exec_unpackHw3 _ _)
    ⟨_, _, _, _, _, cutHw3_beginWord _ _⟩
  obtain ⟨t4, e4, n4, c4, at4⟩ := at3.runs (i := .hw4 (wordAt b 12)) hl (by decide) rfl
    ⟨_, _, _, _, _, cutHw4_beginWord _ _⟩
  obtain ⟨t5, e5, n5, c5, at5⟩ := at4.runs (i := .hw5 (wordAt b 16)) hl (by decide) rfl
    ⟨_, _, _, _, _, cutHw5_beginWord _ _⟩
  have steps : decodeSteps s = .ok t5.stagePlen.commit := by
    simp only [decodeSteps, bind, Except.bind, n1, c1, n2, c2, n3, c3, n4, c4, n5, c5]
  refine ⟨_, _, _, _, _, t5, rfl, rfl, rfl, rfl, rfl,
    execSeq_cons e1 <| execSeq_cons e2 <| execSeq_cons e3 <| execSeq_cons e4 <| execSeq_cons e5 rfl, ?_⟩
  rw [exec_decode_ok hrun hl steps, ← at5.flen]
  rfl

end Sys2Proof.Machine
end

section
/-! PROOFS. The family of `30_encoding.md`: the command words and the header words, decoded and encoded, and what a
header word does as an instruction. -/

namespace Sys2Proof.Machine

/-! ## A word in wire order (R52, R74) -/

/-- The big-endian reading of a word's bytes in wire order is the word. -/
theorem be32_wireByte (x : Word) : be32 (wireByte x 0) (wireByte x 1) (wireByte x 2) (wireByte x 3) = x := by
  have hx := x.isLt
  apply BitVec.eq_of_toNat_eq
  simp only [be32_toNat, wireByte, extract_toNat, Fin.isValue, Fin.coe_ofNat_eq_mod, Nat.reduceMod,
    Nat.reduceMul, Nat.reduceSub]
  omega

/-- The bytes of a big-endian reading in wire order are the bytes read. -/
theorem wireBytes_be32 (b0 b1 b2 b3 : Byte) : wireBytes (be32 b0 b1 b2 b3) = [b0, b1, b2, b3] := by
  obtain ⟨h0, h1, h2, h3⟩ := Addr4.mk.inj (Addr4.ofWord_be32 b0 b1 b2 b3)
  simp only [wireBytes, h0, h1, h2, h3]

/-! ## The fields of a header word (R71 to R74) -/

theorem unpackHw1_packHw1 (ver ihl : BitVec 4) (ds : BitVec 6) (ecn : BitVec 2) (tlRaw : BitVec 16) :
    unpackHw1 (packHw1 ver ihl ds ecn tlRaw) = .hw1 ver ihl ds ecn tlRaw := by
  simp only [unpackHw1, Instr.hw1.injEq]
  refine ⟨?_, ?_, ?_, ?_, ?_⟩ <;> apply BitVec.eq_of_toNat_eq <;>
    simp only [extract_toNat, packHw1_toNat] <;> omega

theorem unpackHw2_packHw2 (ident : BitVec 16) (flags : BitVec 2) (frag : BitVec 14) :
    unpackHw2 (packHw2 ident flags frag) = .hw2 ident flags frag := by
  simp only [unpackHw2, Instr.hw2.injEq]
  refine ⟨?_, ?_, ?_⟩ <;> apply BitVec.eq_of_toNat_eq <;> simp only [extract_toNat, packHw2_toNat] <;> omega

theorem unpackHw3_packHw3 (ttl proto : BitVec 8) (csum : BitVec 16) :
    unpackHw3 (packHw3 ttl proto csum) = .hw3 ttl proto csum := by
  simp only [unpackHw3, Instr.hw3.injEq]
  refine ⟨?_, ?_, ?_⟩ <;> apply BitVec.eq_of_toNat_eq <;> simp only [extract_toNat, packHw3_toNat] <;> omega

/-- Settles O3: the fields of the word that the four bytes make, each from its bytes (`unpackHw1_be32` to
`unpackHw3_be32`). -/
theorem headerWordsDecodeAsTabled : Obligations.HeaderWordsDecodeAsTabled := fun b0 b1 b2 b3 =>
  ⟨congrArg Except.ok (unpackHw1_be32 b0 b1 b2 b3), congrArg Except.ok (unpackHw2_be32 b0 b1 b2 b3),
    congrArg Except.ok (unpackHw3_be32 b0 b1 b2 b3), rfl, rfl⟩

/-! ## The command words (R80 to R83) -/

/-- `op = c[7:6]` as a number. -/
theorem cmdOp_toNat (c : Byte) : (cmdOp c).toNat = c.toNat / 64 := by
  have hc := c.isLt
  rw [cmdOp, extract_toNat]
  omega

/-- `arg = c[5:0]` as a number. -/
theorem cmdArg_toNat (c : Byte) : (cmdArg c).toNat = c.toNat % 64 := by
  simp only [cmdArg, extract_toNat, Nat.pow_zero, Nat.div_one, Nat.reducePow]

theorem cmdArg_eq_zero_iff (c : Byte) : cmdArg c = 0 ↔ c.toNat % 64 = 0 := by
  rw [← cmdArg_toNat]
  exact BitVec.toNat_inj.symm

/-- The word of `TAKEBITS w` as a number. -/
theorem takeBitsWord_toNat (w : BitVec 6) : ((0b01 : BitVec 2) ++ w : Byte).toNat = 64 + w.toNat := by
  erw [append_toNat]
  rfl

/-- The word of `TAKEBITS w` decodes to it. -/
theorem decode_takeBitsWord {w : BitVec 6} (hw : w.toNat ≤ 32) :
    decode .cmd8 [(0b01 : BitVec 2) ++ w] = .ok (.takeBits w) := by
  have hword := takeBitsWord_toNat w
  have hop : (cmdOp ((0b01 : BitVec 2) ++ w)).toNat = 1 := by rw [cmdOp_toNat, hword]; omega
  have harg : cmdArg ((0b01 : BitVec 2) ++ w) = w := by
    apply BitVec.eq_of_toNat_eq
    rw [cmdArg_toNat, hword]
    omega
  simp only [decode, decodeCommand, hop, harg, Config.takeMax, hw, if_true]

/-- The four values of `op`. -/
theorem cmdOp_cases (c : Byte) :
    (cmdOp c).toNat = 0 ∨ (cmdOp c).toNat = 1 ∨ (cmdOp c).toNat = 2 ∨ (cmdOp c).toNat = 3 := by
  have hop := (cmdOp c).isLt
  omega

/-- Everything the decoder of command words accepts. -/
theorem decodeCommand_ok_cases {c : Byte} {i : Instr} (h : decodeCommand c = .ok i) :
    (i = .nextWord ∧ c = 0x00) ∨ (∃ w, i = .takeBits w ∧ w.toNat ≤ 32 ∧ c = (0b01 : BitVec 2) ++ w) ∨
      (i = .swap16 ∧ c = 0x80) ∨ (i = .decode ∧ c = 0xC0) := by
  unfold decodeCommand at h
  rcases cmdOp_cases c with hop | hop | hop | hop <;> simp only [hop, cmdArg_eq_zero_iff] at h <;>
    split at h <;> cases h <;> rw [cmdOp_toNat] at hop
  · exact .inl ⟨rfl, BitVec.eq_of_toNat_eq (show c.toNat = 0x00 by omega)⟩
  · refine .inr (.inl ⟨_, rfl, ‹_›, BitVec.eq_of_toNat_eq ?_⟩)
    rw [takeBitsWord_toNat, cmdArg_toNat]
    omega
  · exact .inr (.inr (.inl ⟨rfl, BitVec.eq_of_toNat_eq (show c.toNat = 0x80 by omega)⟩))
  · exact .inr (.inr (.inr ⟨rfl, BitVec.eq_of_toNat_eq (show c.toNat = 0xC0 by omega)⟩))

/-- A check refuses exactly where it fails. -/
theorem exists_error_ite {p : Prop} [Decidable p] {i : Instr} {r : Reject} :
    (∃ e, (if p then .ok i else .error r : Except Reject Instr) = .error e) ↔ ¬ p := by
  split <;> simp [*]

/-- The reserved words, range by range (R82). -/
theorem decode_cmd8_error_iff (c : Byte) : (∃ e, decode .cmd8 [c] = .error e) ↔
    (0x01 ≤ c.toNat ∧ c.toNat ≤ 0x3F) ∨ (0x61 ≤ c.toNat ∧ c.toNat ≤ 0x7F) ∨
      (0x81 ≤ c.toNat ∧ c.toNat ≤ 0xBF) ∨ (0xC1 ≤ c.toNat ∧ c.toNat ≤ 0xFF) := by
  simp only [decode, decodeCommand]
  rcases cmdOp_cases c with hop | hop | hop | hop <;>
    simp only [hop, exists_error_ite, cmdArg_eq_zero_iff, cmdArg_toNat, Config.takeMax] <;>
    rw [cmdOp_toNat] at hop <;> omega

/-- A reserved word halts a running block with `BadRequest`. -/
theorem step_cmd_reserved {s : State} {c : Byte} {rest : List Transaction} {e : Reject}
    (hrun : s.halt = false) (hp : s.port = .cmd c :: rest) (hd : decode .cmd8 [c] = .error e) :
    step s = .next ((s.accept rest).faultEntry .badRequest) := by
  simp [step, hp, perform, doCmd, hrun, hd]

/-- Settles O1: the one family of words, `TAKEBITS w`, by `decode_takeBitsWord`. -/
theorem commandWordsDecodeAsTabled : Obligations.CommandWordsDecodeAsTabled := by
  refine ⟨rfl, fun w hw => ?_, rfl, rfl⟩
  have hword : 0x40 + w.setWidth 8 = (0b01 : BitVec 2) ++ w := by
    apply BitVec.eq_of_toNat_eq
    rw [takeBitsWord_toNat, BitVec.toNat_add, BitVec.toNat_setWidth_of_le (by decide)]
    exact Nat.mod_eq_of_lt (show 64 + w.toNat < 256 by omega)
  rw [hword, decode_takeBitsWord hw]

/-- Settles O2: the ranges by `decode_cmd8_error_iff`, the four commands by `decode_cmd8_cases`, the error by
`step_cmd_reserved`. -/
theorem reservedWordsRaiseBadRequest : Obligations.ReservedWordsRaiseBadRequest := fun c =>
  ⟨decode_cmd8_error_iff c, fun _ => decode_cmd8_cases, fun _ _ _ => step_cmd_reserved⟩

/-! ## Encoder and decoder -/

/-- Settles O4: a `TAKEBITS` by `decode_takeBitsWord`; the bytes of a header word are read back to the word
(`be32_wireByte`), and its packed fields are unpacked (`unpackHw1_packHw1` to `unpackHw3_packHw3`). -/
theorem decodeOfEncodeIsIdentity : Obligations.DecodeOfEncodeIsIdentity := by
  intro i hwf
  cases i with
  | nextWord | swap16 | decode => rfl
  | takeBits w => exact decode_takeBitsWord (of_decide_eq_true hwf)
  | hw1 | hw2 | hw3 | hw4 | hw5 =>
    simp only [Instr.format, encode, wireBytes, decode, be32_wireByte, unpackHw1_packHw1, unpackHw2_packHw2,
      unpackHw3_packHw3]

/-- Settles O5: an accepted command is one of `decodeCommand_ok_cases`; the fields of a header word pack to the word
(`packHw1_fields` to `packHw3_fields`), whose bytes are those read (`wireBytes_be32`). -/
theorem encodeOfDecodeIsIdentity : Obligations.EncodeOfDecodeIsIdentity := by
  intro f bytes i h
  unfold decode at h
  split at h
  · rcases decodeCommand_ok_cases h with ⟨rfl, rfl⟩ | ⟨w, rfl, hw, rfl⟩ | ⟨rfl, rfl⟩ | ⟨rfl, rfl⟩
    · exact ⟨rfl, rfl, rfl⟩
    · exact ⟨decide_eq_true hw, rfl, rfl⟩
    · exact ⟨rfl, rfl, rfl⟩
    · exact ⟨rfl, rfl, rfl⟩
  · cases h; exact ⟨rfl, rfl, (congrArg wireBytes (packHw1_fields _)).trans (wireBytes_be32 ..)⟩
  · cases h; exact ⟨rfl, rfl, (congrArg wireBytes (packHw2_fields _)).trans (wireBytes_be32 ..)⟩
  · cases h; exact ⟨rfl, rfl, (congrArg wireBytes (packHw3_fields _)).trans (wireBytes_be32 ..)⟩
  · cases h; exact ⟨rfl, rfl, wireBytes_be32 ..⟩
  · cases h; exact ⟨rfl, rfl, wireBytes_be32 ..⟩
  · cases h

/-! ## A header word as an instruction (R132, log 7) -/

/-- With no word left a header word raises `PrecondWord`. -/
theorem conclude_headerWordOp_short {s : State} (word : Word) (cut : State → Except Abort State)
    (hrun : s.halt = false) (hc : s.flen - s.cur < 4) :
    conclude s (whenRunning s (headerWordOp word cut s)) = .next (s.faultEntry .precondWord) := by
  rw [whenRunning_of_running hrun, headerWordOp_short hc, conclude_raise]

/-- With a word left a header word begins it and cuts it. -/
theorem conclude_headerWordOp_ok {s t : State} {word : Word} {cut : State → Except Abort State}
    (hrun : s.halt = false) (hc : s.cur + 4 ≤ s.flen) (hcut : cut (s.beginWord word) = .ok t) :
    conclude s (whenRunning s (headerWordOp word cut s)) = .next t := by
  rw [whenRunning_of_running hrun, headerWordOp_ok hc, hcut, conclude_ok]

/-- Settles O21: the cut of a word 1 (`cutHw1_beginWord`) gives back the packed fields. -/
theorem headerWord1StagesItsFields : Obligations.HeaderWord1StagesItsFields := by
  intro s ver ihl ds ecn tlRaw
  refine ⟨exec_of_halted _, conclude_headerWordOp_short _ _, fun hrun hc => ?_⟩
  obtain ⟨hver, hihl, hds, hecn, htl⟩ := Instr.hw1.inj (unpackHw1_packHw1 ver ihl ds ecn tlRaw)
  have hcut := cutHw1_beginWord (packHw1 ver ihl ds ecn tlRaw) s
  rw [hver, hihl, hds, hecn, htl] at hcut
  exact conclude_headerWordOp_ok hrun hc hcut

/-- Settles O22: the cut of a word 2 (`cutHw2_beginWord`) gives back the packed fields. -/
theorem headerWord2StagesItsFields : Obligations.HeaderWord2StagesItsFields := by
  intro s ident flags frag
  refine ⟨exec_of_halted _, conclude_headerWordOp_short _ _, fun hrun hc => ?_⟩
  obtain ⟨hident, hflags, hfrag⟩ := Instr.hw2.inj (unpackHw2_packHw2 ident flags frag)
  have hcut := cutHw2_beginWord (packHw2 ident flags frag) s
  rw [hident, hflags, hfrag] at hcut
  exact conclude_headerWordOp_ok hrun hc hcut

/-- Settles O23: the cut of a word 3 (`cutHw3_beginWord`) gives back the packed fields, none of them swapped. -/
theorem headerWord3StagesItsFields : Obligations.HeaderWord3StagesItsFields := by
  intro s ttl proto csum
  refine ⟨exec_of_halted _, conclude_headerWordOp_short _ _, fun hrun hc => ?_⟩
  obtain ⟨httl, hproto, hcsum⟩ := Instr.hw3.inj (unpackHw3_packHw3 ttl proto csum)
  have hcut := cutHw3_beginWord (packHw3 ttl proto csum) s
  rw [httl, hproto, hcsum] at hcut
  exact conclude_headerWordOp_ok hrun hc hcut

/-- Settles O24: a word 4 or 5 is not cut, and its bytes in wire order are the slices of the statement. -/
theorem addressWordsStageTheirBytes : Obligations.AddressWordsStageTheirBytes := by
  intro s word
  refine ⟨fun hh => ⟨exec_of_halted _ hh, exec_of_halted _ hh⟩, fun hrun hc => ?_, fun hrun hc => ?_⟩
  · exact ⟨conclude_headerWordOp_short word cutHw4 hrun hc, conclude_headerWordOp_short word cutHw5 hrun hc⟩
  · exact ⟨conclude_headerWordOp_ok hrun hc (cutHw4_beginWord word s),
      conclude_headerWordOp_ok hrun hc (cutHw5_beginWord word s)⟩

end Sys2Proof.Machine
end

section
/-! PROOFS. The family of `40_extractor.md`: the laws of `takeBits` and of takes one after another, and what `NEXTWORD`
and `TAKEBITS w` do as commands. -/

namespace Sys2Proof.Machine

/-! ## One take, as a number (R101, R103) -/

/-- The value of a take of `n` bits after `k` are gone: bits `31 - k : 32 - (k + n)` of the whole word. -/
theorem take_toNat (x : Word) {k n : Nat} (h : k + n ≤ 32) :
    (shr32 (shl32 x k) (32 - n)).toNat = x.toNat / 2 ^ (32 - (k + n)) % 2 ^ n := by
  rw [take_eq_setWidth_field x k n h, BitVec.toNat_setWidth_of_le (by omega), extract_toNat, Nat.sub_sub]

/-- A left shift within the word keeps the low bits and moves them up. -/
theorem shl32_toNat_of_le (x : Word) {k : Nat} (h : k ≤ 32) :
    (shl32 x k).toNat = x.toNat % 2 ^ (32 - k) * 2 ^ k := by
  rw [shl32_toNat, ← Nat.mul_mod_mul_right, ← Nat.pow_add, Nat.sub_add_cancel h]

/-- A take of more bits than are left gets those left, followed by zeros. -/
theorem overtake_toNat (x : Word) {k n : Nat} (hk : k ≤ 32) (hn : n ≤ 32) (h : 32 < k + n) :
    (shr32 (shl32 x k) (32 - n)).toNat = x.toNat % 2 ^ (32 - k) * 2 ^ (k + n - 32) := by
  have hpow : 2 ^ k = 2 ^ (k + n - 32) * 2 ^ (32 - n) := by
    rw [← Nat.pow_add]
    congr 1
    omega
  rw [shr32_toNat, shl32_toNat_of_le x hk, hpow, ← Nat.mul_assoc, Nat.mul_div_cancel _ (Nat.two_pow_pos _)]

/-- The top bits put back in their place are the word without its low `k` bits. -/
theorem shl32_shr32_toNat (x : Word) (k : Nat) : (shl32 (shr32 x k) k).toNat = x.toNat / 2 ^ k * 2 ^ k := by
  rw [shl32_toNat, shr32_toNat]
  exact Nat.mod_eq_of_lt ((Nat.div_mul_le_self _ _).trans_lt x.isLt)

/-- Settles O6: the second take is the field of the low `32 - w` bits (`take_toNat`), and the sum is division with
remainder by `2 ^ (32 - w)`. -/
theorem takeBitsPartitionsTheWord : Obligations.TakeBitsPartitionsTheWord := by
  intro x w hw
  have hsum : w + (32 - w) = 32 := Nat.add_sub_cancel' hw
  have hlow : (shr32 (shl32 x w) (32 - (32 - w))).toNat = x.toNat % 2 ^ (32 - w) := by
    rw [take_toNat x hsum.le, hsum, Nat.sub_self, Nat.pow_zero, Nat.div_one]
  refine ⟨shr32_toNat x _, hlow, ?_, ?_⟩
  · simp only [takeBits, shl32_shl32, hsum, shl32_full]
  · simp only [takeBits, shl32_shr32_toNat, hlow, Nat.div_add_mod']

/-! ## Takes one after another (R104, R109) -/

@[simp] theorem takeFields_nil (x : Word) : takeFields x [] = ([], x) := rfl

@[simp] theorem takeFields_cons (x : Word) (w : Nat) (ws : List Nat) : takeFields x (w :: ws) =
    (shr32 x (32 - w) :: (takeFields (shl32 x w) ws).1, (takeFields (shl32 x w) ws).2) := rfl

theorem takeFields_length (x : Word) (ws : List Nat) : (takeFields x ws).1.length = ws.length := by
  induction ws generalizing x with
  | nil => rfl
  | cons w ws ih => simp [ih]

/-- The remainders of all the takes are the remainder of one take of all their bits. -/
theorem takeFields_remainder (x : Word) (ws : List Nat) : (takeFields x ws).2 = shl32 x ws.sum := by
  induction ws generalizing x with
  | nil => exact (shl32_zero x).symm
  | cons w ws ih => rw [takeFields_cons, ih, shl32_shl32, List.sum_cons]

/-- The `j`-th value is a take from the word without the bits of the widths before. -/
theorem takeFields_getElem? (x : Word) (ws : List Nat) (j : Nat) :
    (takeFields x ws).1[j]? = ws[j]?.map fun w => shr32 (shl32 x (ws.take j).sum) (32 - w) := by
  induction ws generalizing x j with
  | nil => rfl
  | cons w ws ih =>
    cases j with
    | zero => simp
    | succ j => simp [ih, shl32_shl32]

/-- The sum of the widths up to the `j`-th. -/
theorem sum_take_succ_of_getElem? {ws : List Nat} {j w : Nat} (h : ws[j]? = some w) :
    (ws.take (j + 1)).sum = (ws.take j).sum + w := by
  obtain ⟨hj, rfl⟩ := List.getElem?_eq_some_iff.1 h
  exact List.sum_take_succ ws j hj

/-- The `j`-th value is the word's bits `31 - s_(j-1) : 32 - s_j`. -/
theorem takeFields_value_toNat {x : Word} {ws : List Nat} (hws : ws.sum ≤ 32) {j w : Nat} {value : Word}
    (hw : ws[j]? = some w) (hv : (takeFields x ws).1[j]? = some value) :
    value.toNat = x.toNat / 2 ^ (32 - (ws.take (j + 1)).sum) % 2 ^ w := by
  have hsum : (ws.take (j + 1)).sum = (ws.take j).sum + w := sum_take_succ_of_getElem? hw
  have hle : (ws.take (j + 1)).sum ≤ 32 := ((List.take_sublist _ ws).sum_le_sum (by simp)).trans hws
  rw [takeFields_getElem?, hw] at hv
  obtain rfl := Option.some.inj hv
  rw [hsum] at hle ⊢
  exact take_toNat x hle

/-- Settles O7: the values by `takeFields_value_toNat`, the remainder by `takeFields_remainder`, and the take beyond it
by `overtake_toNat`. -/
theorem takesChainFromTheTop : Obligations.TakesChainFromTheTop := by
  intro x ws hws
  refine ⟨takeFields_length x ws, fun j w value => takeFields_value_toNat hws, takeFields_remainder x ws,
    fun hsum => ?_, fun w hw hover => ?_⟩
  · rw [takeFields_remainder, hsum, shl32_full]
  · rw [takeFields_remainder]
    exact overtake_toNat x hws hw hover

/-- After `k` bits, fields that use up the rest, put back in their places, are the word's low bits. -/
theorem fieldSum_takeFields (x : Word) (ws : List Nat) {k : Nat} (hk : k + ws.sum = 32) :
    fieldSum ws.sum ws (takeFields (shl32 x k) ws).1 = x.toNat % 2 ^ ws.sum := by
  induction ws generalizing k with
  | nil => exact (Nat.mod_one _).symm
  | cons w ws ih =>
    rw [List.sum_cons] at hk ⊢
    have hfirst : 32 - (k + w) = ws.sum := by omega
    rw [takeFields_cons, fieldSum, take_toNat x (by omega), hfirst, shl32_shl32, Nat.add_sub_cancel_left,
      ih (by omega), Nat.add_comm w, Nat.pow_add, Nat.mod_mul, Nat.mul_comm, Nat.add_comm]

/-- Settles O8: `fieldSum_takeFields` with no bit gone before. -/
theorem takenFieldsRebuildTheWord : Obligations.TakenFieldsRebuildTheWord := by
  intro x ws hws
  have h := fieldSum_takeFields x ws (k := 0) (by omega)
  rwa [hws, shl32_zero, Nat.mod_eq_of_lt x.isLt] at h

/-! ## The commands (R105, R106) -/

theorem exec_nextWord_short {s : State} (hrun : s.halt = false) (hc : s.flen - s.cur < 4) :
    exec .nextWord s = .next (s.faultEntry .precondWord) := by
  simp [exec, execNextWord, whenRunning_of_running hrun, nextWordOp_short hc]

theorem exec_takeBits_reserved {s : State} {w : BitVec 6} (hrun : s.halt = false) (hw : 32 < w.toNat) :
    exec (.takeBits w) s = .next (s.faultEntry .badRequest) := by
  simp [exec, execTakeBits, whenRunning_of_running hrun, hw]

theorem exec_takeBits_over {s : State} {w : BitVec 6} (hrun : s.halt = false) (hw : w.toNat ≤ 32)
    (hr : s.rem.toNat < w.toNat) : exec (.takeBits w) s = .next (s.faultEntry .precondTake) := by
  simp [exec, execTakeBits, whenRunning_of_running hrun, Nat.not_lt.2 hw, takeBitsOp_over hr]

/-- Settles O10: the four bytes at `CUR` are the word of `nextWordOp_bytes`. -/
theorem nextWordLoadsTheWordAtCur : Obligations.NextWordLoadsTheWordAtCur := fun _ =>
  ⟨exec_of_halted _, exec_nextWord_short, fun _ _ _ _ hrun hc h0 h1 h2 h3 =>
    exec_nextWord_ok hrun (nextWordOp_bytes hc h0 h1 h2 h3)⟩

/-- Settles O12: a take that completes writes what `State.takeTop` does. -/
theorem takeBitsMovesTheTopBits : Obligations.TakeBitsMovesTheTopBits := by
  intro s w
  refine ⟨exec_of_halted _, exec_takeBits_reserved, exec_takeBits_over, fun hrun hw hr =>
    ⟨s.wWritten || w.toNat == 0, ?_, ?_⟩⟩
  · rintro (hwritten | rfl)
    · simp [hwritten]
    · simp
  · rw [exec_takeBits_ok hrun hw hr]
    simp [State.takeTop, takeBits, shr32, shl32]

/-! ## A run of takes (R107) -/

/-- The states after each of the takes `ws`. -/
def State.takes : List (BitVec 6) → State → List State
  | [], _ => []
  | w :: ws, s => s.takeTop w.toNat :: State.takes ws (s.takeTop w.toNat)

/-- Takes of at most `REM` bits in all complete one after another. -/
theorem execTrace_takeBits {s : State} {ws : List (BitVec 6)} (hrun : s.halt = false) (hrem : s.rem.toNat ≤ 32)
    (hws : (ws.map BitVec.toNat).sum ≤ s.rem.toNat) : execTrace (ws.map .takeBits) s = some (s.takes ws) := by
  induction ws generalizing s with
  | nil => rfl
  | cons w ws ih =>
    rw [List.map_cons, List.sum_cons] at hws
    have hw : w.toNat ≤ s.rem.toNat := by omega
    have hleft := State.takeTop_rem_toNat hw
    exact execTrace_cons (exec_takeBits_ok hrun (hw.trans hrem) hw) (ih hrun (by omega) (by omega))

/-- The values in `V` are those of `takeFields` on `W`. -/
theorem State.takes_map_v (s : State) (ws : List (BitVec 6)) :
    (s.takes ws).map State.v = (takeFields s.w (ws.map BitVec.toNat)).1 := by
  induction ws generalizing s with
  | nil => rfl
  | cons w ws ih => simp [State.takes, ih, takeBits]

/-- There is one state for each take. -/
theorem State.takes_length (s : State) (ws : List (BitVec 6)) : (s.takes ws).length = ws.length := by
  simpa [takeFields_length] using congrArg List.length (s.takes_map_v ws)

/-- Each take leaves `HALT` and counts `REM` down. -/
theorem State.takes_halt_rem {s : State} {ws : List (BitVec 6)}
    (hws : (ws.map BitVec.toNat).sum ≤ s.rem.toNat) {j : Nat} {t : State} (ht : (s.takes ws)[j]? = some t) :
    t.halt = s.halt ∧ t.rem.toNat = s.rem.toNat - ((ws.take (j + 1)).map BitVec.toNat).sum := by
  induction ws generalizing s j with
  | nil => simp [State.takes] at ht
  | cons w ws ih =>
    rw [List.map_cons, List.sum_cons] at hws
    have hleft := State.takeTop_rem_toNat (s := s) (n := w.toNat) (by omega)
    cases j with
    | zero =>
      obtain rfl : s.takeTop w.toNat = t := by simpa [State.takes] using ht
      exact ⟨rfl, by simpa using hleft⟩
    | succ j =>
      obtain ⟨hhalt, hrem⟩ := ih (by omega) ht
      refine ⟨hhalt, ?_⟩
      rw [hrem, hleft, List.take_succ_cons, List.map_cons, List.sum_cons, Nat.sub_sub]

/-- Settles O14: the takes run on the word that `NEXTWORD` began (`execTrace_takeBits`), their values are the fields of
the chaining law (`State.takes_map_v`, `takeFields_value_toNat`), and `REM` is counted down from 32. -/
theorem takesAfterNextWordYieldTheFields : Obligations.TakesAfterNextWordYieldTheFields := by
  intro s b0 b1 b2 b3 ws hrun hc h0 h1 h2 h3 hws
  refine ⟨s.beginWord (be32 b0 b1 b2 b3), (s.beginWord (be32 b0 b1 b2 b3)).takes ws,
    execTrace_cons (exec_nextWord_ok hrun (nextWordOp_bytes hc h0 h1 h2 h3))
      (execTrace_takeBits hrun (Nat.le_refl 32) hws),
    State.takes_length _ ws, fun j w t hw ht => ?_⟩
  obtain ⟨hhalt, hrem⟩ := State.takes_halt_rem hws ht
  have hv : (takeFields (be32 b0 b1 b2 b3) (ws.map BitVec.toNat)).1[j]? = some t.v := by
    have h := State.takes_map_v (s.beginWord (be32 b0 b1 b2 b3)) ws
    rw [State.beginWord_w] at h
    rw [← h, List.getElem?_map, ht, Option.map_some]
  refine ⟨hhalt.trans hrun, hrem, ?_⟩
  rw [List.map_take]
  exact takeFields_value_toNat hws (by rw [List.getElem?_map, hw, Option.map_some]) hv

end Sys2Proof.Machine
end

section
/-! PROOFS. The family of `41_endianness.md`: `swap16` and `SWAP16`, and what an unwritten `W` or `V` holds reaches
nothing. -/

namespace Sys2Proof.Machine

/-! ## The byte swap (R120, R121) -/

/-- `swap16` is self-inverse: the bytes exchanged twice stand as before. -/
theorem swap16_involutive : Function.Involutive swap16 := fun _ =>
  (swap16_append _ _).trans BitVec.extractLsb'_append_extractLsb'

/-- Two pairs of bytes are the same value exactly when they are the same pair. -/
theorem byte_append_inj {a b c d : Byte} : a ++ b = c ++ d ↔ a = c ∧ b = d := by
  simp only [← BitVec.toNat_inj, append_toNat]
  omega

/-- `swap16` leaves a value alone exactly when its two bytes are equal. -/
theorem swap16_eq_self_iff (v : BitVec 16) : swap16 v = v ↔ v.extractLsb' 8 8 = v.extractLsb' 0 8 := by
  conv_lhs => rhs; rw [← BitVec.extractLsb'_append_extractLsb' (w := 8) (len := 8) (x := v)]
  rw [swap16, byte_append_inj]
  exact ⟨And.right, fun h => ⟨h.symm, h⟩⟩

/-- Settles O9: the formula is `swap16_toNat`, an involution is a bijection, and a value of two equal bytes is its low
byte written twice. -/
theorem swapExchangesTheBytes : Obligations.SwapExchangesTheBytes := by
  refine ⟨swap16_toNat, swap16_involutive, swap16_involutive.bijective, swap16_eq_self_iff,
    fun v => ⟨fun h => ?_, ?_⟩⟩
  · have hv : v.extractLsb' 8 8 ++ v.extractLsb' 0 8 = v := BitVec.extractLsb'_append_extractLsb'
    rw [(swap16_eq_self_iff v).1 h] at hv
    exact ⟨_, hv.symm⟩
  · rintro ⟨b, rfl⟩
    exact swap16_append b b

/-! ## `SWAP16` (R122) -/

/-- The two bytes that `SWAP16` exchanges are the low bytes of `V`. -/
theorem swap16_setWidth (v : Word) : swap16 (v.setWidth 16) = v.extractLsb' 0 8 ++ v.extractLsb' 8 8 := by
  apply BitVec.eq_of_toNat_eq
  rw [swap16_toNat, BitVec.toNat_setWidth]
  simp only [append_toNat, extract_toNat]
  omega

/-- Settles O13: `SWAP16` writes what `State.swapValue` does. -/
theorem swap16SwapsTheValueRegister : Obligations.Swap16SwapsTheValueRegister := by
  intro s
  refine ⟨exec_of_halted _, fun hrun => ?_⟩
  rw [exec_swap16_ok hrun, State.swapValue, swap16_setWidth]

/-! ## A take of no bits (R10) -/

/-- A shift down by the whole width gives 0. -/
theorem shr32_full (x : Word) : shr32 x 32 = 0 := by
  simp [shr32, BitVec.ushiftRight_eq_zero]

/-! ## Other contents of an unwritten `W` and `V` (R211) -/

/-- `s` with `w` in an unwritten `W` and `v` in an unwritten `V`. -/
def State.withUnwritten (w v : Word) (s : State) : State :=
  { s with w := if s.wWritten then s.w else w, v := if s.vWritten then s.v else v }

theorem State.sameButUnwritten_iff {s t : State} : s.SameButUnwritten t ↔ ∃ w v, t = s.withUnwritten w v := by
  refine ⟨fun h => ⟨_, _, h⟩, ?_⟩
  rintro ⟨w, v, rfl⟩
  simp +contextual [State.SameButUnwritten, State.withUnwritten]

theorem State.SameButUnwritten.refl (s : State) : s.SameButUnwritten s :=
  State.sameButUnwritten_iff.2 ⟨s.w, s.v, by simp [State.withUnwritten]⟩

section
variable {s t : State} (h : s.SameButUnwritten t)
include h

/-- What does not look at an unwritten register is the same. -/
theorem State.SameButUnwritten.congr {α : Type} {f : State → α} (hf : ∀ w v, f (s.withUnwritten w v) = f s) :
    f t = f s := by
  obtain ⟨w, v, rfl⟩ := State.sameButUnwritten_iff.1 h
  exact hf w v

/-- An update that leaves what the unwritten registers hold, or overwrites it, keeps the states alike. -/
theorem State.SameButUnwritten.map {f : State → State}
    (hf : ∀ w v, f (s.withUnwritten w v) = (f s).withUnwritten w v) : (f s).SameButUnwritten (f t) := by
  obtain ⟨w, v, rfl⟩ := State.sameButUnwritten_iff.1 h
  exact State.sameButUnwritten_iff.2 ⟨w, v, hf w v⟩

/-! ### What they share -/

theorem State.SameButUnwritten.bufMax_eq : t.bufMax = s.bufMax := h.congr fun _ _ => rfl
theorem State.SameButUnwritten.cur_eq : t.cur = s.cur := h.congr fun _ _ => rfl
theorem State.SameButUnwritten.rem_eq : t.rem = s.rem := h.congr fun _ _ => rfl
theorem State.SameButUnwritten.flen_eq : t.flen = s.flen := h.congr fun _ _ => rfl
theorem State.SameButUnwritten.halt_eq : t.halt = s.halt := h.congr fun _ _ => rfl
theorem State.SameButUnwritten.port_eq : t.port = s.port := h.congr fun _ _ => rfl

theorem State.SameButUnwritten.readByte_eq (a : Nat) : t.readByte a = s.readByte a :=
  h.congr (f := fun u => u.readByte a) fun _ _ => rfl

theorem State.SameButUnwritten.memRead_eq (a n : Nat) : t.memRead a n = s.memRead a n := by
  induction n generalizing a with
  | zero => rfl
  | succ n ih => simp only [State.memRead, h.readByte_eq, ih]

/-! ### What each operation does to them -/

theorem State.SameButUnwritten.accept (rest : List Transaction) :
    (s.accept rest).SameButUnwritten (t.accept rest) :=
  h.map fun _ _ => rfl

theorem State.SameButUnwritten.reply (x : Nat) : (s.reply x).SameButUnwritten (t.reply x) :=
  h.map fun _ _ => rfl

theorem State.SameButUnwritten.faultEntry (e : ErrCode) : (s.faultEntry e).SameButUnwritten (t.faultEntry e) :=
  h.map fun _ _ => rfl

theorem State.SameButUnwritten.loadFrame (bytes : List Byte) :
    (s.loadFrame bytes).SameButUnwritten (t.loadFrame bytes) :=
  h.map fun _ _ => rfl

/-- `NEXTWORD` writes `W`, whatever it held. -/
theorem State.SameButUnwritten.beginWord (x : Word) : (s.beginWord x).SameButUnwritten (t.beginWord x) :=
  h.map fun _ _ => rfl

/-- `RESET` forgets what the registers held. -/
theorem State.SameButUnwritten.resetBlock_eq : t.resetBlock = s.resetBlock :=
  h.congr fun _ _ => rfl

/-- The swap of an unwritten `V` stands in a `V` that is still unwritten. -/
theorem State.SameButUnwritten.swapValue : s.swapValue.SameButUnwritten t.swapValue := by
  obtain ⟨w, v, rfl⟩ := State.sameButUnwritten_iff.1 h
  refine State.sameButUnwritten_iff.2 ⟨w, (Machine.swap16 (v.setWidth 16)).setWidth 32, ?_⟩
  cases hv : s.vWritten <;> simp [State.withUnwritten, State.swapValue, hv]

/-- A take from an unwritten `W` leaves `V` unwritten, unless it takes no bits; its value is then 0 whatever `W`
held (U6). -/
theorem State.SameButUnwritten.takeTop (n : Nat) : (s.takeTop n).SameButUnwritten (t.takeTop n) := by
  obtain ⟨w, v, rfl⟩ := State.sameButUnwritten_iff.1 h
  refine State.sameButUnwritten_iff.2 ⟨(takeBits w n).2, (takeBits w n).1, ?_⟩
  cases hw : s.wWritten with
  | true => simp [State.withUnwritten, State.takeTop, hw]
  | false =>
    cases n with
    | zero => simp [State.withUnwritten, State.takeTop, takeBits, shr32_full, hw]
    | succ n => simp [State.withUnwritten, State.takeTop, hw]

end

/-! ### The ends of a transition -/

/-- Two transitions end alike: in states that differ at most in unwritten registers, or early for the same reason. -/
def SameEnd : Except Abort State → Except Abort State → Prop
  | .ok s, .ok t => s.SameButUnwritten t
  | .error a, .error b => a = b
  | _, _ => False

theorem SameEnd.refl (k : Except Abort State) : SameEnd k k := by
  cases k with
  | ok s => exact State.SameButUnwritten.refl s
  | error a => rfl

section
variable {s t : State} (h : s.SameButUnwritten t)
include h

/-- Transitions that end alike have the same outcome; an error is entered on the states they began at (R187). -/
theorem State.SameButUnwritten.sameOutcome {k l : Except Abort State} (hk : SameEnd k l) :
    SameOutcome (conclude s k) (conclude t l) := by
  rcases k with a | u <;> rcases l with b | u'
  · obtain rfl : a = b := hk
    cases a with
    | raise e => exact h.faultEntry e
    | noValue | refuse => rfl
  · exact hk.elim
  · exact hk.elim
  · exact hk

/-- The check of `HALT` does not look at `W` or `V`. -/
theorem State.SameButUnwritten.sameOutcome_whenRunning {k l : Except Abort State} (hk : SameEnd k l) :
    SameOutcome (conclude s (whenRunning s k)) (conclude t (whenRunning t l)) := by
  apply h.sameOutcome
  unfold whenRunning
  rw [h.halt_eq]
  split
  · rfl
  · exact hk

/-! ### The commands -/

/-- `NEXTWORD` looks at `CUR` and the frame alone: it ends early for the same reason, or begins the same word. -/
theorem State.SameButUnwritten.nextWordOp_cases :
    (∃ e, nextWordOp s = .error e ∧ nextWordOp t = .error e) ∨
      ∃ x, nextWordOp s = .ok (s.beginWord x) ∧ nextWordOp t = .ok (t.beginWord x) := by
  simp only [nextWordOp, h.flen_eq, h.cur_eq, h.memRead_eq]
  split
  · exact .inl ⟨_, rfl, rfl⟩
  · split
    · exact .inl ⟨_, rfl, rfl⟩
    · split
      · exact .inl ⟨_, rfl, rfl⟩
      · exact .inr ⟨_, rfl, rfl⟩

/-- The cut of a word 1 writes both `W` and `V`, so nothing is left of what they held. -/
theorem State.SameButUnwritten.cutHw1_eq (x : Word) : cutHw1 (t.beginWord x) = cutHw1 (s.beginWord x) := by
  obtain ⟨w, v, rfl⟩ := State.sameButUnwritten_iff.1 h
  rw [cutHw1_beginWord, cutHw1_beginWord]
  rfl

/-- `DECODE` has the same end: after its first word nothing is left of what `W` and `V` held. -/
theorem State.SameButUnwritten.decodeSteps_eq : decodeSteps t = decodeSteps s := by
  have h0 : { s with cur := 0 }.SameButUnwritten { t with cur := 0 } :=
    h.map (f := fun u => { u with cur := 0 }) fun _ _ => rfl
  rcases h0.nextWordOp_cases with ⟨e, hs, ht⟩ | ⟨x, hs, ht⟩
  · simp only [decodeSteps, hs, ht, bind, Except.bind]
  · simp only [decodeSteps, hs, ht, bind, Except.bind, h0.cutHw1_eq]

/-- No command looks at an unwritten register but to leave what follows from it in one. -/
theorem State.SameButUnwritten.exec {i : Instr} (hi : i.format = .cmd8) :
    SameOutcome (exec i s) (exec i t) := by
  cases i with
  | nextWord =>
    apply h.sameOutcome_whenRunning
    rcases h.nextWordOp_cases with ⟨e, hs, ht⟩ | ⟨x, hs, ht⟩ <;> rw [hs, ht]
    · rfl
    · exact h.beginWord x
  | takeBits w =>
    apply h.sameOutcome_whenRunning
    simp only [takeBitsOp, h.rem_eq]
    split
    · rfl
    · split
      · rfl
      · exact h.takeTop w.toNat
  | swap16 => exact h.sameOutcome_whenRunning h.swapValue
  | decode =>
    apply h.sameOutcome_whenRunning
    rw [h.flen_eq, h.decodeSteps_eq]
    exact SameEnd.refl _
  | hw1 | hw2 | hw3 | hw4 | hw5 => cases hi

/-! ### The transactions -/

/-- A `READ` returns `W` or `V` only where it has been written, and there they are the same (R163). -/
theorem State.SameButUnwritten.readReg_eq (r : Reg) : readReg r t = readReg r s := by
  obtain ⟨w, v, rfl⟩ := State.sameButUnwritten_iff.1 h
  cases r with
  | w => cases hw : s.wWritten <;> simp [readReg, readWritten, whenRunning, State.withUnwritten, hw]
  | v => cases hv : s.vWritten <;> simp [readReg, readWritten, whenRunning, State.withUnwritten, hv]
  | _ => rfl

theorem State.SameButUnwritten.readPayload_eq (i : Nat) : readPayload i t = readPayload i s :=
  h.congr fun _ _ => rfl

/-- The same value read is the same answer. -/
theorem State.SameButUnwritten.sameEnd_reply (k : Except Abort Nat) :
    SameEnd (k.map fun x => s.reply x) (k.map fun x => t.reply x) := by
  cases k with
  | ok x => exact h.reply x
  | error a => rfl

/-- A transaction is refused, faults or raises on both states alike, or has its effect on both. -/
theorem State.SameButUnwritten.perform (tr : Transaction) : SameOutcome (perform tr s) (perform tr t) := by
  cases tr with
  | reset =>
    simp only [Machine.perform, doReset, h.resetBlock_eq]
    exact State.SameButUnwritten.refl _
  | load bytes =>
    apply h.sameOutcome_whenRunning
    rw [h.bufMax_eq]
    split
    · rfl
    · exact h.loadFrame bytes
  | rxfail => exact h.sameOutcome_whenRunning rfl
  | cmd c =>
    simp only [Machine.perform, doCmd, h.halt_eq]
    split
    · rfl
    · split
      · exact h.faultEntry .badRequest
      · rename_i i hd
        exact h.exec (decode_cmd8_format hd)
  | read r =>
    simp only [Machine.perform, doRead, h.readReg_eq]
    exact h.sameOutcome (h.sameEnd_reply _)
  | readPay i =>
    simp only [Machine.perform, doReadPay, h.readPayload_eq]
    exact h.sameOutcome (h.sameEnd_reply _)

end

/-- Settles O47: both states take the same transaction, if any, and perform it to the same outcome
(`State.SameButUnwritten.perform`). -/
theorem unwrittenRegistersAreNeverLearned : Obligations.UnwrittenRegistersAreNeverLearned := by
  intro s t h
  unfold step
  rw [h.port_eq]
  split
  · exact h
  · exact (h.accept _).perform _

end Sys2Proof.Machine
end

section
/-! PROOFS. The family of `42_decoder.md`: the length check of `DECODE`, the record and the reader it leaves, the round
trip between the header words and the record, and the receive cycle. -/

namespace Sys2Proof.Machine

/-! ## The length check (R131) -/

/-- A frame of fewer than 20 bytes stops `DECODE` before its first step, whatever the frame holds. -/
theorem exec_decode_short {s : State} (hrun : s.halt = false) (hl : s.flen < 20) :
    exec .decode s = .next (s.faultEntry .shortBuffer) := by
  simp [exec, execDecode, whenRunning_of_running hrun, hl]

/-- Settles O15: `exec_decode_short`, and from 20 bytes on a held frame decodes whatever it holds
(`exec_decode_held`). -/
theorem decodeChecksTheLengthFirst : Obligations.DecodeChecksTheLengthFirst := fun s =>
  ⟨exec_of_halted .decode, exec_decode_short, fun hrun hl hf =>
    ⟨s.decodeFrame s.byteAt, Record.ofFrame s.byteAt s.flen, exec_decode_held hf hrun hl, hrun, rfl, rfl, rfl⟩⟩

/-! ## The record and the reader (R133, R137, R138) -/

/-- Settles O16: `State.decodeFrame` is the stated next state, with `Record.ofFrame` written out. -/
theorem decodeBuildsTheRecord : Obligations.DecodeBuildsTheRecord := fun _ _ => exec_decode_reads

/-- Settles O19: both headers read the bytes of the first, so both states take the same record and the same reader. -/
theorem decodeDependsOnTheHeaderAlone : Obligations.DecodeDependsOnTheHeaderAlone := by
  intro s t hs _ hsrun htrun hflen hl hbytes
  have ht (a : Nat) (ha : a < 20) : t.readByte a = some (s.byteAt a) := by
    rw [← hbytes a ha, hs.readByte_eq (ha.trans_le hl)]
  have record_eq : (s.decodeFrame s.byteAt).record = (t.decodeFrame s.byteAt).record := by
    simp only [State.decodeFrame, hflen]
  exact ⟨_, _, exec_decode_held hs hsrun hl, exec_decode_reads htrun (hflen ▸ hl) ht, rfl, record_eq,
    rfl, rfl, rfl, rfl⟩

/-! ## The round trip between header and record (R140) -/

/-- The header words that R140 puts together from a record, in the order of the frame. -/
def Record.headerWord (r : Record) : Fin 5 → Word
  | 0 => packHw1 r.ver r.ihl r.ds r.ecn (Machine.swap16 r.tlen)
  | 1 => packHw2 r.ident r.flags r.frag
  | 2 => packHw3 r.ttl r.proto r.csum
  | 3 => be32 r.src.b0 r.src.b1 r.src.b2 r.src.b3
  | 4 => be32 r.dst.b0 r.dst.b1 r.dst.b2 r.dst.b3

/-- The bytes of a record's header words, one word after another, each in wire order. -/
def Record.headerByte (r : Record) (a : Nat) : Byte :=
  wireByte (r.headerWord (Fin.ofNat 5 (a / 4))) (Fin.ofNat 4 a)

/-- The record of a frame gives back the frame's header words. -/
theorem Record.headerWord_ofFrame (byte : Nat → Byte) (flen : Nat) (j : Fin 5) :
    (Record.ofFrame byte flen).headerWord j = wordAt byte (4 * j) := by
  rw [Record.ofFrame_eq_words]
  fin_cases j
  · exact (congrArg _ (swap16_involutive _)).trans (packHw1_fields _)
  · exact packHw2_fields _
  · exact packHw3_fields _
  · exact be32_wireByte _
  · exact be32_wireByte _

/-- The words that stand in a record's header bytes are its header words. -/
theorem Record.wordAt_headerByte (r : Record) (j : Fin 5) : wordAt r.headerByte (4 * j) = r.headerWord j := by
  rw [← be32_wireByte (r.headerWord j)]
  fin_cases j <;> rfl

/-- The header bytes put together from a record decode to that record, but for `PLEN`. -/
theorem Record.ofFrame_headerByte (r : Record) (flen : Nat) :
    Record.ofFrame r.headerByte flen = { r with plen := flen - 20 } := by
  have w1 : wordAt r.headerByte 0 = _ := r.wordAt_headerByte 0
  have w2 : wordAt r.headerByte 4 = _ := r.wordAt_headerByte 1
  have w3 : wordAt r.headerByte 8 = _ := r.wordAt_headerByte 2
  have w4 : wordAt r.headerByte 12 = _ := r.wordAt_headerByte 3
  have w5 : wordAt r.headerByte 16 = _ := r.wordAt_headerByte 4
  obtain ⟨ver, ihl, ds, ecn, tlRaw⟩ :=
    Instr.hw1.inj (unpackHw1_packHw1 r.ver r.ihl r.ds r.ecn (Machine.swap16 r.tlen))
  obtain ⟨ident, flags, frag⟩ := Instr.hw2.inj (unpackHw2_packHw2 r.ident r.flags r.frag)
  obtain ⟨ttl, proto, csum⟩ := Instr.hw3.inj (unpackHw3_packHw3 r.ttl r.proto r.csum)
  simp only [Record.ofFrame_eq_words, w1, w2, w3, w4, w5, Record.headerWord, ver, ihl, ds, ecn, tlRaw,
    swap16_involutive _, ident, flags, frag, ttl, proto, csum, Addr4.ofWord_be32]

/-- Only the bytes below `FLEN` hold a value. -/
theorem State.lt_flen_of_readByte {s : State} {a : Nat} {b : Byte} (h : s.readByte a = some b) : a < s.flen := by
  by_contra hn
  simp [State.readByte, hn] at h

/-- Settles O20: the formulas of R140 are the record's header words as numbers, which `Record.headerWord_ofFrame` takes
back to the frame; and `Record.ofFrame_headerByte` gives a header for every record. -/
theorem recordRebuildsTheHeader : Obligations.RecordRebuildsTheHeader := by
  refine ⟨fun s t b r hrun hb h hr => ?_, fun r => ⟨r.headerByte, r.ofFrame_headerByte⟩⟩
  have hl : 20 ≤ s.flen := State.lt_flen_of_readByte (hb 19 (by decide))
  rw [exec_decode_reads hrun hl hb] at h
  obtain rfl := Host.Outcome.next.inj h
  obtain rfl : Record.ofFrame b s.flen = r := Option.some.inj hr
  have rebuilt := Record.headerWord_ofFrame b s.flen
  rw [← packHw1_toNat, ← packHw2_toNat, ← packHw3_toNat]
  exact ⟨congrArg BitVec.toNat (rebuilt 0), congrArg BitVec.toNat (rebuilt 1), congrArg BitVec.toNat (rebuilt 2),
    rebuilt 3, rebuilt 4⟩

/-! ## The receive cycle (R167) -/

theorem step_load_ok {s : State} {bytes : List Byte} {rest : List Transaction} (hrun : s.halt = false)
    (hp : s.port = .load bytes :: rest) (hb : bytes.length ≤ s.bufMax) :
    step s = .next ((s.accept rest).loadFrame bytes) := by
  have hrun' : (s.accept rest).halt = false := hrun
  simp [step, hp, perform, doLoad, whenRunning_of_running hrun', Nat.not_lt.2 hb]

theorem step_cmd_decoded {s : State} {c : Byte} {i : Instr} {rest : List Transaction} (hrun : s.halt = false)
    (hp : s.port = .cmd c :: rest) (hd : decode .cmd8 [c] = .ok i) : step s = exec i (s.accept rest) := by
  simp [step, hp, perform, doCmd, hrun, hd]

theorem runSteps_succ {s t : State} (h : step s = .next t) (n : Nat) : runSteps (n + 1) s = runSteps n t := by
  simp only [runSteps, Host.Core.run, Sys2Proof.core, h]

theorem runSteps_one (s : State) : runSteps 1 s = step s := by
  simp only [runSteps, Host.Core.run, Sys2Proof.core]
  cases step s <;> rfl

/-- The two steps `LOAD` and `CMD DECODE` are `DECODE` on the loaded frame. -/
theorem runSteps_load_decode {s : State} {bytes : List Byte} {rest : List Transaction} (hrun : s.halt = false)
    (hp : s.port = .load bytes :: .cmd 0xC0 :: rest) (hb : bytes.length ≤ s.bufMax) :
    runSteps 2 s = exec .decode ((s.accept rest).loadFrame bytes) := by
  rw [runSteps_succ (step_load_ok hrun hp hb), runSteps_one]
  exact step_cmd_decoded hrun rfl rfl

/-- Settles O33: `DECODE` on the loaded frame (`runSteps_load_decode`) stops at the length check or gives the record of
the loaded bytes, which it leaves in the frame. -/
theorem receiveCycleDecodesTheDatagram : Obligations.ReceiveCycleDecodesTheDatagram := by
  intro s bytes rest hrun hp hb
  rw [runSteps_load_decode hrun hp hb]
  have hread := (s.accept rest).loadFrame_readByte bytes
  rcases Nat.lt_or_ge bytes.length 20 with hl | hl
  · exact ⟨_, exec_decode_short hrun hl, rfl, rfl, fun h => absurd hl h.not_gt, fun _ => ⟨rfl, rfl, rfl⟩⟩
  · have hbyte (a : Nat) (ha : a < 20) :
        ((s.accept rest).loadFrame bytes).readByte a = some (bytes.getD a 0) := by
      rw [hread, List.getD_eq_getElem _ _ (ha.trans_le hl), List.getElem?_eq_getElem]
    refine ⟨_, exec_decode_reads hrun hl hbyte, rfl, rfl, fun _ => ⟨hrun, rfl, rfl, ?_⟩,
      fun h => absurd h hl.not_gt⟩
    intro d hd
    obtain rfl := Option.some.inj hd
    exact ⟨rfl, fun i _ => (State.readByte_congr rfl rfl (20 + i)).trans (hread (20 + i))⟩

end Sys2Proof.Machine
end

section
/-! PROOFS. The family of `43_framing.md`: what a step does with each transaction of the host, and what a `READ` is
answered. -/

namespace Sys2Proof.Machine

/-! ## A step performs the oldest transaction (R160) -/

theorem step_of_port {s : State} {tr : Transaction} {rest : List Transaction} (hp : s.port = tr :: rest) :
    step s = perform tr (s.accept rest) := by
  simp only [step, hp]

/-- The taken transaction is gone, whatever its effect: no operation writes the pending transactions. -/
theorem step_port {s t : State} (h : step s = .next t) : t.port = s.port.tail := by
  rcases step_next_cases h with ⟨hp, rfl⟩ | ⟨tr, rest, hp, effect⟩
  · rw [hp, List.tail_nil]
  rw [hp, List.tail_cons]
  rcases effect with ⟨_, rfl⟩ | ⟨_, e, _, _, rfl⟩ | ⟨_, bytes, _, _, rfl⟩ | ⟨_, c, i, _, _, hexec, _⟩ |
    ⟨r, x, _, _, _, rfl⟩ | ⟨_, i, x, _, _, rfl⟩
  · exact State.resetBlock_port _
  · exact State.faultEntry_port e _
  · exact State.loadFrame_port bytes _
  · obtain ⟨_, _, hport, _⟩ := exec_leaves_frame hexec
    exact hport
  · exact State.reply_port x _
  · exact State.reply_port x _

/-- Settles O32, by the definition of a step with none pending and by `step_port`. -/
theorem stepTakesOneTransaction : Obligations.StepTakesOneTransaction :=
  ⟨fun s hp => by simp only [step, hp], fun _ _ => step_port⟩

/-! ## While halted (R191) -/

/-- Every register but those of the table's first row is read behind the check of `HALT`. -/
theorem readReg_halted {s : State} {r : Reg} (hh : s.halt = true) (hr : r.always = false) :
    readReg r s = .error (.refuse .halted) := by
  cases r with
  | status | valid | halt | err => cases hr
  | _ => exact whenRunning_of_halted hh _

/-- Every transaction but `RESET` and the status reads is refused. -/
theorem perform_halted {s : State} {tr : Transaction} (hh : s.halt = true) (htr : tr.acceptedHalted = false) :
    perform tr s = .refused .halted := by
  cases tr with
  | reset => cases htr
  | load bytes => simp [perform, doLoad, whenRunning_of_halted hh]
  | rxfail => simp [perform, doRxfail, whenRunning_of_halted hh]
  | cmd c => simp [perform, doCmd, hh]
  | read r => simp [perform, doRead, readReg_halted hh htr, Except.map]
  | readPay i => simp [perform, doReadPay, readPayload, whenRunning_of_halted hh, Except.map]

theorem step_halted {s : State} {tr : Transaction} {rest : List Transaction} (hp : s.port = tr :: rest)
    (htr : tr.acceptedHalted = false) (hh : s.halt = true) : step s = .refused .halted :=
  (step_of_port hp).trans (perform_halted hh htr)

/-! ## `CMD`, `LOAD`, `RXFAIL` and `RESET` -/

/-- Settles O26: `doCmd`'s three branches, `step_halted`, `step_cmd_reserved` and `step_cmd_decoded`. -/
theorem stepRunsTheDecodedCommand : Obligations.StepRunsTheDecodedCommand := fun _ _ _ hp =>
  ⟨step_halted hp rfl, fun _ hrun => step_cmd_reserved hrun hp, fun _ hrun => step_cmd_decoded hrun hp⟩

theorem step_load_over {s : State} {bytes : List Byte} {rest : List Transaction} (hrun : s.halt = false)
    (hp : s.port = .load bytes :: rest) (hb : s.bufMax < bytes.length) :
    step s = .next ((s.accept rest).faultEntry .badRequest) := by
  have hrun' : (s.accept rest).halt = false := hrun
  simp [step_of_port hp, perform, doLoad, whenRunning_of_running hrun', hb]

/-- Settles O27: the memory is the frame's bytes written into an empty one, and it reads as them
(`State.loadFrame_readByte`). -/
theorem loadTakesTheFrame : Obligations.LoadTakesTheFrame := by
  intro s bytes rest hp
  refine ⟨step_halted hp rfl, fun hrun => step_load_over hrun hp, fun hrun hb => ?_⟩
  have hstep := step_load_ok hrun hp hb
  refine ⟨Memory.writeBytes 0 bytes [], Memory.writeBytes_wf rfl bytes 0,
    Memory.writeBytes_within rfl bytes 0 (by omega), hstep, fun t ht => ?_⟩
  obtain rfl := Host.Outcome.next.inj (hstep.symm.trans ht)
  exact (s.accept rest).loadFrame_readByte bytes

theorem step_rxfail {s : State} {rest : List Transaction} (hrun : s.halt = false) (hp : s.port = .rxfail :: rest) :
    step s = .next ((s.accept rest).faultEntry .socketReadFailure) := by
  have hrun' : (s.accept rest).halt = false := hrun
  simp [step_of_port hp, perform, doRxfail, whenRunning_of_running hrun']

/-- Settles O28: `step_halted` and `step_rxfail`. -/
theorem rxfailRecordsTheFailure : Obligations.RxfailRecordsTheFailure := fun _ _ hp =>
  ⟨step_halted hp rfl, fun hrun => step_rxfail hrun hp⟩

/-- Settles O31: the step is `State.resetBlock`, before which there is no check; with `FLEN` 0 no address holds a
byte. -/
theorem resetClearsTheBlock : Obligations.ResetClearsTheBlock := fun s rest hp =>
  ⟨(s.accept rest).resetBlock, step_of_port hp, rfl, rfl, rfl, rfl, rfl, rfl, rfl, rfl, fun _ => rfl, rfl, rfl, rfl,
    rfl⟩

/-! ## `READ` of a register (R163) -/

/-- A `READ` sees nothing of the pending transactions and the answer. -/
theorem readReg_accept (r : Reg) (rest : List Transaction) (s : State) :
    readReg r (s.accept rest) = readReg r s := rfl

theorem State.answers_of_readReg {s : State} {r : Reg} {x : Nat} (h : readReg r s = .ok x) : s.Answers r x := by
  intro rest hp
  rw [step_of_port hp, perform, doRead, readReg_accept, h]
  rfl

theorem State.refusesRead_of_readReg {s : State} {r : Reg} {why : Refusal}
    (h : readReg r s = .error (.refuse why)) : s.RefusesRead r why := by
  intro rest hp
  rw [step_of_port hp, perform, doRead, readReg_accept, h]
  rfl

theorem State.valid_toNat (s : State) : s.valid.toNat = if s.record = none then 0 else 1 := by
  unfold State.valid
  cases s.record <;> simp

section
variable {s : State} (hrun : s.halt = false)
include hrun

theorem readRunning_ok (x : Nat) : readRunning x s = .ok x := whenRunning_of_running hrun _

theorem readWritten_ok {written : Bool} (hw : written = true) (x : Nat) : readWritten written x s = .ok x := by
  simp [readWritten, whenRunning_of_running hrun, hw]

theorem readWritten_unwritten {written : Bool} (hw : written = false) (x : Nat) :
    readWritten written x s = .error (.refuse .unwritten) := by
  simp [readWritten, whenRunning_of_running hrun, hw]

theorem readRecord_ok {d : Record} (hd : s.record = some d) (field : Record → Nat) :
    readRecord field s = .ok (field d) := by
  simp [readRecord, whenRunning_of_running hrun, hd]

theorem readRecord_noRecord (hn : s.record = none) (field : Record → Nat) :
    readRecord field s = .error (.refuse .noRecord) := by
  simp [readRecord, whenRunning_of_running hrun, hn]

/-- The registers of the table's last row are those read with `readRecord`. -/
theorem readReg_noRecord (hn : s.record = none) {r : Reg} (hr : r.ofRecord = true) :
    readReg r s = .error (.refuse .noRecord) := by
  cases r with
  | status | valid | halt | err | flen | cur | rem | w | v => cases hr
  | _ => exact readRecord_noRecord hrun hn _

/-- A record register whose read is that of `field` is answered with the field of the record held. -/
theorem State.answers_of_record {d : Record} (hd : s.record = some d) {r : Reg} (field : Record → Nat)
    (hr : readReg r s = readRecord field s) : s.Answers r (field d) :=
  State.answers_of_readReg (hr.trans (readRecord_ok hrun hd field))

end

/-- Settles O29, row by row of the table: the reads that are always answered, those that ask only that the block
runs, `W` and `V`, and the record registers. -/
theorem readAnswersByTheTable : Obligations.ReadAnswersByTheTable := by
  intro s
  refine ⟨State.answers_of_readReg rfl, State.answers_of_readReg (congrArg Except.ok s.valid_toNat),
    State.answers_of_readReg (congrArg Except.ok (Bool.cond_eq_ite s.halt 1 0)), State.answers_of_readReg rfl,
    fun hh _ hr => State.refusesRead_of_readReg (readReg_halted hh hr), fun hrun => ?_⟩
  have running (r : Reg) {x : Nat} (hr : readReg r s = readRunning x s) : s.Answers r x :=
    State.answers_of_readReg (hr.trans (readRunning_ok hrun x))
  refine ⟨running .flen rfl, running .cur rfl, running .rem rfl,
    fun hw => State.answers_of_readReg (readWritten_ok hrun hw _),
    fun hw => State.refusesRead_of_readReg (readWritten_unwritten hrun hw _),
    fun hv => State.answers_of_readReg (readWritten_ok hrun hv _),
    fun hv => State.refusesRead_of_readReg (readWritten_unwritten hrun hv _),
    fun hn _ hr => State.refusesRead_of_readReg (readReg_noRecord hrun hn hr), fun d hd => ?_⟩
  and_intros
  all_goals
    apply State.answers_of_record hrun hd
    rfl

/-! ## `READ PAY[i]` (R164) -/

section
variable {s : State} (hrun : s.halt = false)
include hrun

theorem readPayload_noRecord (hn : s.record = none) (i : Nat) : readPayload i s = .error (.refuse .noRecord) := by
  simp [readPayload, whenRunning_of_running hrun, hn]

theorem readPayload_beyond {d : Record} (hd : s.record = some d) {i : Nat} (hi : d.plen ≤ i) :
    readPayload i s = .error (.refuse .payloadIndex) := by
  simp [readPayload, whenRunning_of_running hrun, hd, hi]

theorem readPayload_within {d : Record} (hd : s.record = some d) {i : Nat} (hi : i < d.plen) {x : Byte}
    (hx : s.readByte (20 + i) = some x) : readPayload i s = .ok x.toNat := by
  simp [readPayload, whenRunning_of_running hrun, hd, Nat.not_le.2 hi, Config.hdrBytes, hx]

end

/-- A `READ PAY[i]` sees nothing of the pending transactions and the answer. -/
theorem step_readPay {s : State} {i : Nat} {rest : List Transaction} (hp : s.port = .readPay i :: rest) :
    step s = conclude (s.accept rest) ((readPayload i s).map fun x => (s.accept rest).reply x) :=
  step_of_port hp

/-- Settles O30: `step_halted`, and the three results of `readPayload` on a running block. -/
theorem readPayAnswersTheWindow : Obligations.ReadPayAnswersTheWindow := by
  intro s i rest hp
  refine ⟨step_halted hp rfl, fun hrun hn => ?_, fun d hrun hd hi => ?_, fun d x hrun hd hi hx => ?_⟩
  · rw [step_readPay hp, readPayload_noRecord hrun hn]; rfl
  · rw [step_readPay hp, readPayload_beyond hrun hd hi]; rfl
  · rw [step_readPay hp, readPayload_within hrun hd hi hx]; rfl

end Sys2Proof.Machine
end

section
/-! PROOFS. The family of `60_exceptions.md`: the fault entry, the errors each transaction raises, and the refusals. -/

namespace Sys2Proof.Machine

/-! ## Fault entry (R187, R195) -/

/-- Of the effects a step can have, fault entry alone halts a running block, and its error is one of the taken
transaction's. -/
theorem step_halts {s t : State} (hrun : s.halt = false) (h : step s = .next t) (hh : t.halt = true) :
    ∃ tr rest e, s.port = tr :: rest ∧ e ≠ .noError ∧ e ∈ tr.canRaise ∧ t = (s.accept rest).faultEntry e := by
  rcases step_next_cases h with ⟨_, rfl⟩ | ⟨tr, rest, hp, effect⟩
  · simp [hrun] at hh
  rcases effect with ⟨_, rfl⟩ | ⟨_, e, he, hraise, ht⟩ | ⟨_, bytes, _, _, rfl⟩ | ⟨_, c, i, _, _, _, command⟩ |
    ⟨r, x, _, _, _, rfl⟩ | ⟨_, i, x, _, _, rfl⟩
  · simp at hh
  · exact ⟨tr, rest, e, hp, he, hraise, ht⟩
  · simp [hrun] at hh
  · rcases command with ⟨_, _, x, rfl⟩ | ⟨w, _, _, _, rfl⟩ | ⟨_, rfl⟩ | ⟨_, _, x, v, r, rfl⟩ <;>
      simp [hrun] at hh
  · simp [hrun] at hh
  · simp [hrun] at hh

/-- Settles O35: `State.faultEntry` on the state with the transaction taken is the stated next state
(`step_halts`). -/
theorem faultEntryWritesNothingElse : Obligations.FaultEntryWritesNothingElse := by
  intro s t hrun h hh
  obtain ⟨tr, rest, e, hp, he, _, rfl⟩ := step_halts hrun h hh
  refine ⟨e, he, ?_⟩
  rw [hp]
  rfl

/-- Settles O36: the error of the fault entry is one of the taken transaction's (`step_halts`). -/
theorem transactionsRaiseAsTabled : Obligations.TransactionsRaiseAsTabled := by
  intro s t tr rest hp hrun h hh
  obtain ⟨tr', rest', e, hp', _, hraise, rfl⟩ := step_halts hrun h hh
  obtain ⟨rfl, rfl⟩ := List.cons.inj (hp.symm.trans hp')
  exact hraise

/-! ## Refusals (R191) -/

/-- The one way a transition is refused. -/
theorem conclude_refused {s : State} {k : Except Abort State} {why : Refusal}
    (h : conclude s k = .refused why) : k = .error (.refuse why) := by
  rcases k with (e | a | r) | t
  · simp at h
  · simp at h
  · rw [conclude_refuse, Host.Outcome.refused.injEq] at h
    rw [h]
  · simp at h

/-- `RESET` and the status reads are accepted in every state. -/
theorem perform_accepted {tr : Transaction} (htr : tr.acceptedHalted = true) (s : State) (why : Refusal) :
    perform tr s ≠ .refused why := by
  intro h
  cases tr with
  | reset => cases h
  | load | rxfail | cmd | readPay => cases htr
  | read r =>
    have hk := map_reply_error (conclude_refused h)
    cases r with
    | status | valid | halt | err => cases hk
    | _ => cases htr

section
variable {s : State} (hrun : s.halt = false)
include hrun

/-- Once the block runs, the transition behind the check of `HALT` is itself refused. -/
theorem conclude_running_refused {k : Except Abort State} {why : Refusal}
    (h : conclude s (whenRunning s k) = .refused why) : k = .error (.refuse why) :=
  (whenRunning_of_running hrun k).symm.trans (conclude_refused h)

/-- No command is refused while the block runs. -/
theorem exec_running_ne_refused {i : Instr} (hi : i.format = .cmd8) (why : Refusal) :
    exec i s ≠ .refused why := by
  intro h
  cases i with
  | nextWord =>
    have hk := conclude_running_refused hrun h
    rcases nextWordOp_cases s with ⟨_, e⟩ | ⟨_, x, e⟩ | ⟨_, a, _, _, _, e⟩ <;> rw [e] at hk <;> cases hk
  | takeBits w =>
    have hk := conclude_running_refused hrun h
    unfold takeBitsOp at hk
    split at hk
    · cases hk
    · split at hk <;> cases hk
  | swap16 =>
    cases conclude_running_refused hrun h
  | decode =>
    have hk := conclude_running_refused hrun h
    split at hk
    · cases hk
    · rename_i hl
      rcases decodeSteps_cases (Nat.le_of_not_lt hl) with ⟨x, v, r, e⟩ | ⟨a, _, _, e⟩ <;> rw [e] at hk <;> cases hk
  | hw1 | hw2 | hw3 | hw4 | hw5 => cases hi

/-- What a running block refuses is a read. -/
theorem perform_running_refused {tr : Transaction} {why : Refusal} (h : perform tr s = .refused why) :
    (∃ r, tr = .read r ∧ readReg r s = .error (.refuse why)) ∨
      ∃ i, tr = .readPay i ∧ readPayload i s = .error (.refuse why) := by
  cases tr with
  | reset => cases h
  | load bytes =>
    have hk := conclude_running_refused hrun h
    split at hk <;> cases hk
  | rxfail =>
    cases conclude_running_refused hrun h
  | cmd c =>
    simp only [perform, doCmd, hrun, Bool.false_eq_true, if_false] at h
    split at h
    · cases h
    · rename_i i hd
      exact absurd h (exec_running_ne_refused hrun (decode_cmd8_format hd) why)
  | read r => exact .inl ⟨r, rfl, map_reply_error (conclude_refused h)⟩
  | readPay i => exact .inr ⟨i, rfl, map_reply_error (conclude_refused h)⟩

/-- A read of `W` or `V` is refused only where it is unwritten. -/
theorem unwritten_of_readWritten_error {written : Bool} {x : Nat} {a : Abort}
    (h : readWritten written x s = .error a) : written = false := by
  cases hw : written with
  | false => rfl
  | true => rw [readWritten_ok hrun hw] at h; cases h

/-- A read of a record register is refused only without a record. -/
theorem noRecord_of_readRecord_error {field : Record → Nat} {a : Abort}
    (h : readRecord field s = .error a) : s.record = none := by
  cases hd : s.record with
  | none => rfl
  | some d => rw [readRecord_ok hrun hd] at h; cases h

/-- The reads of registers that a running block refuses, by the rows of R163. -/
theorem readReg_running_error {r : Reg} {a : Abort} (h : readReg r s = .error a) :
    (r.ofRecord = true ∧ s.record = none) ∨ (r = .w ∧ s.wWritten = false) ∨ (r = .v ∧ s.vWritten = false) := by
  cases r with
  | status | valid | halt | err => cases h
  | flen | cur | rem =>
    simp only [readReg, readRunning_ok hrun] at h
    cases h
  | w => exact .inr (.inl ⟨rfl, unwritten_of_readWritten_error hrun h⟩)
  | v => exact .inr (.inr ⟨rfl, unwritten_of_readWritten_error hrun h⟩)
  | _ => exact .inl ⟨rfl, noRecord_of_readRecord_error hrun h⟩

/-- The reads of the payload that a running block refuses (R164). -/
theorem readPayload_running_refused {i : Nat} {why : Refusal} (h : readPayload i s = .error (.refuse why)) :
    s.record = none ∨ ∃ d, s.record = some d ∧ d.plen ≤ i := by
  cases hd : s.record with
  | none => exact .inl rfl
  | some d =>
    refine .inr ⟨d, rfl, Nat.le_of_not_lt fun hi => ?_⟩
    rw [readPayload, whenRunning_of_running hrun] at h
    simp only [hd, Nat.not_le.2 hi, if_false] at h
    split at h <;> cases h

end

/-- Settles O37. A halted block refuses all but `RESET` and the status reads (`step_halted`, `perform_accepted`); a
running one refuses reads only (`perform_running_refused`), and those by the rules of R163 and R164. -/
theorem refusalsAreExactlyTheListed : Obligations.RefusalsAreExactlyTheListed := by
  intro s tr rest hp
  constructor
  · rintro ⟨why, h⟩
    rw [step_of_port hp] at h
    cases hh : s.halt with
    | true =>
      refine .inl ⟨rfl, Bool.eq_false_iff.2 fun htr => ?_⟩
      exact perform_accepted htr _ why h
    | false =>
      refine .inr ⟨rfl, ?_⟩
      rcases perform_running_refused (s := s.accept rest) hh h with ⟨r, rfl, hr⟩ | ⟨i, rfl, hi⟩
      · rcases readReg_running_error (s := s.accept rest) hh hr with ⟨hrec, hn⟩ | ⟨rfl, hw⟩ | ⟨rfl, hv⟩
        · exact .inl ⟨⟨r, rfl, hrec⟩, hn⟩
        · exact .inr (.inr (.inr (.inl ⟨rfl, hw⟩)))
        · exact .inr (.inr (.inr (.inr ⟨rfl, hv⟩)))
      · rcases readPayload_running_refused (s := s.accept rest) hh hi with hn | ⟨d, hd, hle⟩
        · exact .inr (.inl ⟨⟨i, rfl⟩, hn⟩)
        · exact .inr (.inr (.inl ⟨i, d, rfl, hd, hle⟩))
  · rintro (⟨hh, htr⟩ | ⟨hrun, ⟨⟨r, rfl, hrec⟩, hn⟩ | ⟨⟨i, rfl⟩, hn⟩ | ⟨i, d, rfl, hd, hle⟩ | ⟨rfl, hw⟩ | ⟨rfl, hv⟩⟩)
    · exact ⟨_, step_halted hp htr hh⟩
    · exact ⟨_, State.refusesRead_of_readReg (readReg_noRecord hrun hn hrec) rest hp⟩
    · obtain ⟨_, hnone, _⟩ := readPayAnswersTheWindow s i rest hp
      exact ⟨_, hnone hrun hn⟩
    · obtain ⟨_, _, hbeyond, _⟩ := readPayAnswersTheWindow s i rest hp
      exact ⟨_, hbeyond d hrun hd hle⟩
    · exact ⟨_, State.refusesRead_of_readReg (r := .w) (readWritten_unwritten hrun hw _) rest hp⟩
    · exact ⟨_, State.refusesRead_of_readReg (r := .v) (readWritten_unwritten hrun hv _) rest hp⟩

end Sys2Proof.Machine
end
